-- ==== Sys2Proof/Config.lean ====
section
/-! DEFINITION. What the implementation fixes (00_scope.md R6): the largest degree, the four element
register numbers, and the names of the error kinds. The core has no undefined result, so there is no
free value here; LATENCY and LINK_BYTE_ORDER are read by no rule and are left out (log 1, log 18). -/

namespace Sys2Proof

/-- `MMAX = 32`, the largest degree CONFIG accepts and the width of an element register's value and
polynomial fields (00_scope.md R6; log 4). -/
def mmax : Nat := 32

/-- The element register numbers: NREG = 4, selected by a 2-bit number (10_state.md R22). -/
inductive Reg where
  | E0
  | E1
  | E2
  | E3
deriving DecidableEq, Repr

/-- The error kinds (60_exceptions.md R185). `widthMismatch` and `overflow` are kept so that the
numbering is whole; no command raises them (R191, R192; log 13). -/
inductive ErrorKind where
  /-- 1, raised by CONFIG (R186). -/
  | invalidDegree
  /-- 2, raised by ELEM (R187). -/
  | indexOutOfRange
  /-- 3, raised by ADD, SUB, MUL, DIV, GCD (R188). -/
  | incompatibleOperands
  /-- 4, raised by DIV and INV (R189). -/
  | divisionByZero
  /-- 5, never raised (R191). -/
  | widthMismatch
  /-- 6, never raised (R192). -/
  | overflow
  /-- 7, raised by the decoder (R193). -/
  | illegalCommand
  /-- 8, raised by COUNT and ELEM (R194). -/
  | noField
  /-- 9, raised by every command that reads an element register (R195). -/
  | emptyRegister
deriving DecidableEq, Repr

end Sys2Proof
end

