-- ==== Sys2Proof/Syntax.lean ====
section
/-! DEFINITION. The eleven commands of the opcode map (30_encoding.md R67), one constructor per row of
spec/opcode_table.json. Register operands are register numbers; the degree, the polynomial and the
index are the unsigned numbers of the written form (30_encoding.md R70, R71, R76), whose ranges
WellFormed.lean checks. -/

namespace Sys2Proof

/-- A command with its operands (30_encoding.md R62, R67, R74). -/
inductive Instr where
  /-- CONFIG m, poly: construct a field (41_field.md R110). -/
  | config (m poly : Nat)
  /-- COUNT: the number of elements of the field (41_field.md R112). -/
  | count
  /-- ELEM rd, index: take an element of the field into a register (41_field.md R113). -/
  | elem (rd : Reg) (index : Nat)
  /-- ADD rd, rs1, rs2 (42_addsub.md R130). -/
  | add (rd rs1 rs2 : Reg)
  /-- SUB rd, rs1, rs2 (42_addsub.md R131). -/
  | sub (rd rs1 rs2 : Reg)
  /-- MUL rd, rs1, rs2 (43_mul.md R140). -/
  | mul (rd rs1 rs2 : Reg)
  /-- DIV rd, rs1, rs2 (44_div_inv.md R152). -/
  | div (rd rs1 rs2 : Reg)
  /-- INV rd, rs1 (44_div_inv.md R150). -/
  | inv (rd rs1 : Reg)
  /-- GCD rd, rs1, rs2 (45_gcd_bezout.md R165). -/
  | gcd (rd rs1 rs2 : Reg)
  /-- RDV rs1: read the value in a register (41_field.md R114). -/
  | rdv (rs1 : Reg)
  /-- RDP rs1: read the polynomial in a register (41_field.md R115). -/
  | rdp (rs1 : Reg)
deriving DecidableEq, Repr

end Sys2Proof
end

