-- ==== Sys2Proof/WellFormed.lean ====
section
/-! DEFINITION. Which commands can be written as a command word: every operand fits its field
(30_encoding.md R61, R70, R71). Register numbers always do. -/

namespace Sys2Proof

/-- The operands fit the fields: M has 6 bits (R71), IMM has 33 (R70). -/
def Instr.wellFormed : Instr → Bool
  | .config m poly => decide (m < 2 ^ 6) && decide (poly < 2 ^ 33)
  | .count => true
  | .elem _ index => decide (index < 2 ^ 33)
  | .add _ _ _ => true
  | .sub _ _ _ => true
  | .mul _ _ _ => true
  | .div _ _ _ => true
  | .inv _ _ => true
  | .gcd _ _ _ => true
  | .rdv _ => true
  | .rdp _ => true

/-- The command can be encoded. -/
abbrev Instr.WellFormed (i : Instr) : Prop := i.wellFormed = true

end Sys2Proof
end

