-- ==== Sys2Proof/Word.lean ====
section
/-! DEFINITION. The words the core exchanges with the host: every command and every response is one
word of exactly 64 bits (30_encoding.md R60), transferred whole (20_memory.md R43), bit 0 the least
significant bit (00_scope.md R7). -/

namespace Sys2Proof

/-- A command word: CMDW = 64 bits (30_encoding.md R60). -/
abbrev CmdWord := BitVec 64

/-- A response word: RSPW = 64 bits (30_encoding.md R60). -/
abbrev RspWord := BitVec 64

end Sys2Proof
end

