-- ==== Sys2Proof/Decode.lean ====
section
/-! DEFINITION. The decoder of 30_encoding.md R74, total on all 2^64 words and rejecting by the name
`illegalCommand`, and the encoder written from the same field table (R61, R62, R67). -/

namespace Sys2Proof

/-! ### The fields of a command word (R61) -/

/-- OPC, bits 63:60. -/
def fieldOPC (w : CmdWord) : Nat := (w.extractLsb' 60 4).toNat

/-- RD, bits 59:58. -/
def fieldRD (w : CmdWord) : Nat := (w.extractLsb' 58 2).toNat

/-- RS1, bits 57:56. -/
def fieldRS1 (w : CmdWord) : Nat := (w.extractLsb' 56 2).toNat

/-- RS2, bits 55:54. -/
def fieldRS2 (w : CmdWord) : Nat := (w.extractLsb' 54 2).toNat

/-- M, bits 53:48, unsigned (R71). -/
def fieldM (w : CmdWord) : Nat := (w.extractLsb' 48 6).toNat

/-- Z, bits 47:33, zero in every command (R63). -/
def fieldZ (w : CmdWord) : Nat := (w.extractLsb' 33 15).toNat

/-- IMM, bits 32:0, unsigned, neither extended nor scaled (R70). -/
def fieldIMM (w : CmdWord) : Nat := (w.extractLsb' 0 33).toNat

/-- Register number n is `En` (R72). -/
def regOfNumber : Nat → Reg
  | 0 => .E0
  | 1 => .E1
  | 2 => .E2
  | _ => .E3

/-- The number of a register (R72). -/
def regNumber : Reg → Nat
  | .E0 => 0
  | .E1 => 1
  | .E2 => 2
  | .E3 => 3

/-- A command when every field its format does not use is zero, else `IllegalCommand` (R63). -/
def legalIf (unusedAreZero : Bool) (i : Instr) : Except ErrorKind Instr :=
  if unusedAreZero then .ok i else .error .illegalCommand

/-- Fields unused by the formats R (R62): M and IMM. -/
def zeroMI (w : CmdWord) : Bool := fieldM w == 0 && fieldIMM w == 0

/-- The decode step (R74): the opcode selects the row, the row's format the fields that must be zero.
It reads no state. -/
def decode (w : CmdWord) : Except ErrorKind Instr :=
  let rd := regOfNumber (fieldRD w)
  let rs1 := regOfNumber (fieldRS1 w)
  let rs2 := regOfNumber (fieldRS2 w)
  if fieldZ w ≠ 0 then .error .illegalCommand
  else match fieldOPC w with
    | 1 => legalIf (fieldRD w == 0 && fieldRS1 w == 0 && fieldRS2 w == 0) (.config (fieldM w) (fieldIMM w))
    | 2 => legalIf (fieldRD w == 0 && fieldRS1 w == 0 && fieldRS2 w == 0 && zeroMI w) .count
    | 3 => legalIf (fieldRS1 w == 0 && fieldRS2 w == 0 && fieldM w == 0) (.elem rd (fieldIMM w))
    | 4 => legalIf (zeroMI w) (.add rd rs1 rs2)
    | 5 => legalIf (zeroMI w) (.sub rd rs1 rs2)
    | 6 => legalIf (zeroMI w) (.mul rd rs1 rs2)
    | 7 => legalIf (zeroMI w) (.div rd rs1 rs2)
    | 8 => legalIf (fieldRS2 w == 0 && zeroMI w) (.inv rd rs1)
    | 9 => legalIf (zeroMI w) (.gcd rd rs1 rs2)
    | 10 => legalIf (fieldRD w == 0 && fieldRS2 w == 0 && zeroMI w) (.rdv rs1)
    | 11 => legalIf (fieldRD w == 0 && fieldRS2 w == 0 && zeroMI w) (.rdp rs1)
    | _ => .error .illegalCommand

/-! ### The encoder -/

/-- A word from its fields, Z zero: each field at its place of R61. -/
def packFields (opc rd rs1 rs2 m imm : Nat) : CmdWord :=
  BitVec.ofNat 64 (opc * 2 ^ 60 + rd * 2 ^ 58 + rs1 * 2 ^ 56 + rs2 * 2 ^ 54 + m * 2 ^ 48 + imm)

/-- The command word of a well-formed command (R61, R62, R67). -/
def encode : Instr → CmdWord
  | .config m poly => packFields 0x1 0 0 0 m poly
  | .count => packFields 0x2 0 0 0 0 0
  | .elem rd index => packFields 0x3 (regNumber rd) 0 0 0 index
  | .add rd rs1 rs2 => packFields 0x4 (regNumber rd) (regNumber rs1) (regNumber rs2) 0 0
  | .sub rd rs1 rs2 => packFields 0x5 (regNumber rd) (regNumber rs1) (regNumber rs2) 0 0
  | .mul rd rs1 rs2 => packFields 0x6 (regNumber rd) (regNumber rs1) (regNumber rs2) 0 0
  | .div rd rs1 rs2 => packFields 0x7 (regNumber rd) (regNumber rs1) (regNumber rs2) 0 0
  | .inv rd rs1 => packFields 0x8 (regNumber rd) (regNumber rs1) 0 0 0
  | .gcd rd rs1 rs2 => packFields 0x9 (regNumber rd) (regNumber rs1) (regNumber rs2) 0 0
  | .rdv rs1 => packFields 0xA 0 (regNumber rs1) 0 0 0
  | .rdp rs1 => packFields 0xB 0 (regNumber rs1) 0 0 0

/-- The word of an instruction whose `nbits` table bits are `w`, every bit above them zero. All rows of
the table have 64 bits (R60), and a word is transferred whole (20_memory.md R43), so there is no byte
order to apply. -/
def tableWord (nbits w : Nat) : CmdWord := BitVec.ofNat 64 (w % 2 ^ nbits)

/-- What the decoder reads from a word numbered as spec/opcode_table.json numbers it. -/
def decodeTableWord (nbits w : Nat) : Option Instr :=
  match decode (tableWord nbits w) with
  | .ok i => some i
  | .error _ => none

end Sys2Proof
end

