-- ==== Sys2Proof/Machine/State.lean ====
section
/-! DEFINITION. The whole state of the core (10_state.md R20 to R29) with the state of its two channels
(R29; 70_reset_and_hazards.md R215, R218, R225), and the host agent as plain data (R225, R228, R229).
There is no program counter, no flag, no mode and no writable memory (R25 to R28; 20_memory.md R40). -/

namespace Sys2Proof.Machine

/-- A valid field configuration `(m, p)` (10_state.md R20): the degree and the low m coefficients of the
defining polynomial, the x^m coefficient being implicit (R21). -/
structure FieldConfig where
  m : BitVec 6
  p : BitVec 32
deriving DecidableEq, Repr

/-- A FieldElement (10_state.md R22): its bit pattern, its width, and a copy of the polynomial of the
field it came from. -/
structure Element where
  value : BitVec 32
  width : BitVec 6
  poly : BitVec 32
deriving DecidableEq, Repr

/-- What the host drives on the input ports at one rising edge of `clk` (70_reset_and_hazards.md R225):
`rst`, `cmd_valid` with `cmd_word`, and `rsp_ready`. -/
structure PortInput where
  rst : Bool
  /-- `some w` is `cmd_valid = 1` with `cmd_word = w`; `none` is `cmd_valid = 0`. -/
  cmd : Option CmdWord
  rspReady : Bool
deriving DecidableEq, Repr

/-- The state of the machine: the core, its two channels, and the host. -/
structure State where
  /-- `F` (R20): `none`, or the pair (m, p). -/
  field : Option FieldConfig
  /-- `E[0]` (R22): `none` is `empty` (R23). -/
  e0 : Option Element
  e1 : Option Element
  e2 : Option Element
  e3 : Option Element
  /-- The command taken and not yet answered (R29, R218). -/
  command : Option CmdWord
  /-- The response offered and not yet taken, `rsp_valid` with `rsp_word` (R29, R218, R225). -/
  response : Option RspWord
  /-- The host: what it drives at the coming rising edges, the next one first (log 2). -/
  inputs : List PortInput
  /-- The host: the responses handed over to it, oldest first (R228; log 2). -/
  received : List RspWord
deriving DecidableEq, Repr

/-- The machine right after reset (10_state.md R29): no field, every register empty, both channels idle;
the host has driven nothing and received nothing (log 8). -/
def State.reset : State where
  field := none
  e0 := none
  e1 := none
  e2 := none
  e3 := none
  command := none
  response := none
  inputs := []
  received := []

/-- The reasons the machine could stop with a fault: none. Every error of the spec is a response and the
core goes on (60_exceptions.md R190, R198), and every command ends (70_reset_and_hazards.md R227). -/
inductive Fault where
deriving DecidableEq, Repr

/-- The reasons an instruction could be left without a meaning. -/
inductive Refusal where
  /-- Raised by an arm of `exec` whose instruction has no meaning yet; safe. No arm does. -/
  | notModelled (mnemonic : String)
deriving DecidableEq, Repr

/-- The outcome of an instruction or of a step. -/
abbrev Result := Host.Outcome State Fault Refusal

end Sys2Proof.Machine
end

