-- ==== Sys2Proof/Machine/Flags.lean ====
section
/-! DEFINITION. The core has no flags, condition codes or sticky error bits (10_state.md R26): the
outcome of a command is in its response word and nowhere else. This file is that outcome: the status
codes (60_exceptions.md R185) and the response word (30_encoding.md R64 to R66), and the bits of a
response in the order of the bit-string form (41_field.md R120). -/

namespace Sys2Proof.Machine

/-- The STATUS code of an error kind (R185). -/
def errorCode : ErrorKind → BitVec 4
  | .invalidDegree => 1
  | .indexOutOfRange => 2
  | .incompatibleOperands => 3
  | .divisionByZero => 4
  | .widthMismatch => 5
  | .overflow => 6
  | .illegalCommand => 7
  | .noField => 8
  | .emptyRegister => 9

/-- A response word from its fields, Z zero (R64): STATUS 63:60, WIDTH 59:54, Z 53:33, VALUE 32:0. -/
def responseWord (status : BitVec 4) (width : BitVec 6) (value : BitVec 33) : RspWord :=
  status ++ width ++ (0 : BitVec 21) ++ value

/-- The response of a success: STATUS 0, the width, the value zero-extended to 33 bits (R64). -/
def okWord (width : BitVec 6) (value : Nat) : RspWord :=
  responseWord 0 width (BitVec.ofNat 33 value)

/-- The response of an error: the code and nothing else (R66). -/
def errorWord (k : ErrorKind) : RspWord := responseWord (errorCode k) 0 0

/-- STATUS, bits 63:60 (R64). -/
def statusOf (r : RspWord) : BitVec 4 := r.extractLsb' 60 4

/-- WIDTH, bits 59:54 (R64). -/
def widthOf (r : RspWord) : BitVec 6 := r.extractLsb' 54 6

/-- Z, bits 53:33, always zero (R64). -/
def zeroOf (r : RspWord) : BitVec 21 := r.extractLsb' 33 21

/-- VALUE, bits 32:0 (R64). -/
def valueOf (r : RspWord) : BitVec 33 := r.extractLsb' 0 33

/-- The bit-string form of a value of width m (R120), `true` for the character 1: m bits, the most
significant first. -/
def bitString (m value : Nat) : List Bool :=
  (List.range m).map fun k => value.testBit (m - 1 - k)

/-- The same form in characters, as the host writes it (R120). -/
def bitChars (m value : Nat) : List Char :=
  (bitString m value).map fun b => if b then '1' else '0'

/-- The bits `VALUE[WIDTH-1]` down to `VALUE[0]` of a response (R120). -/
def responseBits (r : RspWord) : List Bool := bitString (widthOf r).toNat (valueOf r).toNat

end Sys2Proof.Machine
end

