-- ==== Sys2Proof/Machine/Ops.lean ====
section
/-! DEFINITION. The named operations over the state: register access (10_state.md R22 to R24), the field
configuration (R20, R21), the element table (20_memory.md R41, R42), ending a command with a response
or with an error (30_encoding.md R64; 60_exceptions.md R190: the core's whole exception entry, from
which there is no return, R198), and reset (70_reset_and_hazards.md R215). -/

namespace Sys2Proof.Machine

/-! ### Element registers -/

/-- Read of `E[r]`: `none` is `empty` (R22, R23). -/
def State.reg (s : State) : Reg → Option Element
  | .E0 => s.e0
  | .E1 => s.e1
  | .E2 => s.e2
  | .E3 => s.e3

/-- `E[r] <- e` (R22). -/
def State.setReg (s : State) (r : Reg) (e : Element) : State :=
  match r with
  | .E0 => { s with e0 := some e }
  | .E1 => { s with e1 := some e }
  | .E2 => { s with e2 := some e }
  | .E3 => { s with e3 := some e }

/-- `F <- (m, p)` (R20). -/
def State.setField (s : State) (f : FieldConfig) : State := { s with field := some f }

/-! ### The defining polynomial -/

/-- `trunc_w(a)`: the low w bits (00_scope.md R8). -/
def trunc (w a : Nat) : Nat := a % 2 ^ w

/-- The effective modulus `P = 2^m + p`, the polynomial `x^m + p` (10_state.md R21). -/
def effectiveModulus (m p : Nat) : Nat := 2 ^ m + p

/-- The modulus a field configuration stands for. -/
def FieldConfig.modulus (f : FieldConfig) : Nat := effectiveModulus f.m.toNat f.p.toNat

/-- The modulus an element carries (41_field.md R115). -/
def Element.modulus (e : Element) : Nat := effectiveModulus e.width.toNat e.poly.toNat

/-- The field configuration CONFIG stores: the low m bits of the polynomial, unchecked (R21, R110). -/
def makeField (m poly : Nat) : FieldConfig :=
  { m := BitVec.ofNat 6 m, p := BitVec.ofNat 32 (trunc m poly) }

/-- The element of value v with the width and polynomial copy of e. -/
def Element.withValue (e : Element) (v : Nat) : Element := { e with value := BitVec.ofNat 32 v }

/-! ### The element table -/

/-- `ElemRead(i)`, the only memory read (20_memory.md R42): entry i is `(i, m, p)` for `i < 2^m`. The
contents are a function of the field alone (R41), so there is nothing to store. -/
def elemRead (f : FieldConfig) (i : Nat) : Except ErrorKind Element :=
  if i ≥ 2 ^ f.m.toNat then .error .indexOutOfRange
  else .ok { value := BitVec.ofNat 32 i, width := f.m, poly := f.p }

/-- The table of a state: no entries while `F = none` (R41). -/
def State.tableEntry (s : State) (i : Nat) : Option Element :=
  match s.field with
  | none => none
  | some f =>
    match elemRead f i with
    | .ok e => some e
    | .error _ => none

/-! ### The end of a command -/

/-- End the command with a response word: the command is no longer in progress and its one response is
pending (70_reset_and_hazards.md R225). -/
def answer (r : RspWord) (s : State) : State := { s with command := none, response := some r }

/-- `respond(width, value)` (30_encoding.md R64). -/
def respond (width : BitVec 6) (value : Nat) (s : State) : State := answer (okWord width value) s

/-- `raise <Kind>` (60_exceptions.md R190): no state is written, the response carries the code. -/
def raise (k : ErrorKind) (s : State) : State := answer (errorWord k) s

/-- The end of a command that writes an element register: `E[rd] <- e` and `respond(e.width, e.value)`,
or the error it met (10_state.md R24; 60_exceptions.md R190). -/
def commit (rd : Reg) (result : Except ErrorKind Element) (s : State) : State :=
  match result with
  | .ok e => respond e.width e.value.toNat (s.setReg rd e)
  | .error k => raise k s

/-! ### Reset and the channels -/

/-- The reset state of the core (10_state.md R29; 70_reset_and_hazards.md R215): a command in progress
and a pending response are dropped (R218); the host is not the core's to reset. -/
def resetCore (s : State) : State :=
  { s with field := none, e0 := none, e1 := none, e2 := none, e3 := none,
           command := none, response := none }

/-- `cmd_ready`: no command is outstanding (70_reset_and_hazards.md R225). -/
def cmdReady (s : State) : Bool := s.command.isNone && s.response.isNone

/-- `rsp_valid` (R225). -/
def rspValid (s : State) : Bool := s.response.isSome

/-- `rsp_word`, where `rsp_valid` is 1 (R225). -/
def rspWord (s : State) : Option RspWord := s.response

/-- The host drives nothing. -/
def PortInput.idle : PortInput := { rst := false, cmd := none, rspReady := false }

/-- What the host drives at the coming edge; nothing once its list is at its end (log 2). -/
def nextInput (s : State) : PortInput :=
  match s.inputs with
  | [] => .idle
  | p :: _ => p

/-- The edge has passed. -/
def dropInput (s : State) : State := { s with inputs := s.inputs.tail }

/-- The response is handed over when `rsp_valid` and `rsp_ready` are both 1, and held unchanged while
`rsp_ready` is 0 (R225). -/
def takeResponse (p : PortInput) (s : State) : State :=
  match s.response with
  | none => s
  | some r =>
    if p.rspReady then { s with response := none, received := s.received ++ [r] } else s

/-- A command is handed over when `cmd_valid` and `cmd_ready` are both 1 (R225). -/
def acceptCommand (p : PortInput) (s : State) : State :=
  match p.cmd with
  | none => s
  | some w => if cmdReady s then { s with command := some w } else s

end Sys2Proof.Machine
end

