-- ==== Sys2Proof/Machine/Operands.lean ====
section
/-! DEFINITION. The operand forms (30_encoding.md R72): a source operand is the whole element in the
register named. The checks on operands are those of 10_state.md R31 and 60_exceptions.md R188, R189,
R194, R195, in the order of R196. -/

namespace Sys2Proof.Machine

/-- `F`, or `NoField` when there is none (R194). -/
def readField (s : State) : Except ErrorKind FieldConfig :=
  match s.field with
  | none => .error .noField
  | some f => .ok f

/-- A source register, or `EmptyRegister` (R195). -/
def readSource (r : Reg) (s : State) : Except ErrorKind Element :=
  match s.reg r with
  | none => .error .emptyRegister
  | some e => .ok e

/-- Both source registers, or `EmptyRegister` when either is empty (R195). -/
def readPair (rs1 rs2 : Reg) (s : State) : Except ErrorKind (Element × Element) :=
  match s.reg rs1, s.reg rs2 with
  | some a, some b => .ok (a, b)
  | _, _ => .error .emptyRegister

/-- `same_width(a, b)` (10_state.md R31). -/
def sameWidth (a b : Element) : Bool := a.width == b.width

/-- `same_field(a, b)`: it compares the copies the elements carry (10_state.md R31). -/
def sameField (a b : Element) : Bool := a.width == b.width && a.poly == b.poly

/-- The element is the zero element: the test is on the value alone (44_div_inv.md R153). -/
def isZero (e : Element) : Bool := e.value == 0

/-- Two operands of one width: the check of ADD and SUB (R188). -/
def readSameWidth (rs1 rs2 : Reg) (s : State) : Except ErrorKind (Element × Element) :=
  match readPair rs1 rs2 s with
  | .error k => .error k
  | .ok (a, b) => if sameWidth a b then .ok (a, b) else .error .incompatibleOperands

/-- Two operands of one field: the check of MUL, DIV and GCD (R188). -/
def readSameField (rs1 rs2 : Reg) (s : State) : Except ErrorKind (Element × Element) :=
  match readPair rs1 rs2 s with
  | .error k => .error k
  | .ok (a, b) => if sameField a b then .ok (a, b) else .error .incompatibleOperands

end Sys2Proof.Machine
end

