-- ==== Sys2Proof/Machine/AddSub.lean ====
section
/-! DEFINITION. The adder/subtractor: ADD and SUB (42_addsub.md). -/

namespace Sys2Proof.Machine

/-- The XOR of two elements of one width, carrying the first operand's width and polynomial (R130). -/
def xorResult (rs1 rs2 : Reg) (s : State) : Except ErrorKind Element :=
  match readSameWidth rs1 rs2 s with
  | .error k => .error k
  | .ok (a, b) => .ok { a with value := a.value ^^^ b.value }

/-- ADD rd, rs1, rs2 (R130). -/
def execAdd (rd rs1 rs2 : Reg) (s : State) : Result :=
  .next (commit rd (xorResult rs1 rs2 s) s)

/-- SUB rd, rs1, rs2: ADD under another opcode (R131). -/
def execSub (rd rs1 rs2 : Reg) (s : State) : Result :=
  .next (commit rd (xorResult rs1 rs2 s) s)

end Sys2Proof.Machine
end

