-- ==== Sys2Proof/Machine/Poly.lean ====
section
/-! DEFINITION. The BitPolynomial primitives (40_bitpolynomial.md). A bit vector is held in its integer
form, `sum of bit[i] * 2^i` (R96), so XOR, shifts, comparison and bit tests are those of Nat (R91 to
R94). Loops run on a bound that the rules prove sufficient (R99; log 7). -/

namespace Sys2Proof.Machine

/-- `deg(a)` for `a ≠ 0`, the index of the highest set bit (00_scope.md R8). -/
def deg (a : Nat) : Nat := a.log2

/-- Halve until odd, at most `fuel` times, counting. -/
def ctzLoop : Nat → Nat → Nat
  | 0, _ => 0
  | fuel + 1, a => if a % 2 = 1 then 0 else 1 + ctzLoop fuel (a / 2)

/-- `CTZ(a)` for `a ≠ 0`: how often x divides a (R95). `CTZ(0)` is never evaluated (log 6). -/
def ctz (a : Nat) : Nat := ctzLoop (deg a) a

/-- The XOR of `a << i` over the set bits i of b below n. -/
def clmulBelow (a b : Nat) : Nat → Nat
  | 0 => 0
  | n + 1 => clmulBelow a b n ^^^ (if b.testBit n then a <<< n else 0)

/-- `CLMUL(a, b)`: the product of two polynomials over GF(2), not reduced (R98). -/
def clmul (a b : Nat) : Nat := clmulBelow a b (deg b + 1)

/-- The division loop of R99: clear the top bit of r until its degree is below that of b. -/
def pdivmodLoop (b : Nat) : Nat → Nat → Nat → Nat × Nat
  | 0, q, r => (q, r)
  | fuel + 1, q, r =>
    if r ≠ 0 ∧ deg r ≥ deg b then
      pdivmodLoop b fuel (q ^^^ (1 <<< (deg r - deg b))) (r ^^^ (b <<< (deg r - deg b)))
    else (q, r)

/-- `PDIVMOD(a, b)` for `b ≠ 0`: quotient and remainder of polynomials over GF(2) (R99).
`PDIVMOD(a, 0)` is never evaluated (log 6). -/
def pdivmod (a b : Nat) : Nat × Nat :=
  if b = 0 then (0, a) else pdivmodLoop b (deg a + 1) 0 a

end Sys2Proof.Machine
end

