-- ==== Sys2Proof/Machine/Bezout.lean ====
section
/-! DEFINITION. The extended binary GCD inverse solver (45_gcd_bezout.md): the binary GCD `BGCD` (R166),
the Bezout table `XEUCLID` (R170) and the inverter `INVCORE` (44_div_inv.md R151). All working values
are unbounded integers in the rules; nothing of them survives a command (10_state.md R28). -/

namespace Sys2Proof.Machine

/-- The loop of BGCD (R166): swap so that `u ≤ v`, replace v by `v XOR u`, return `u << k` when it is
zero, else strip its trailing zeros. The bound is that of R167(b) (log 7). -/
def bgcdLoop (k : Nat) : Nat → Nat → Nat → Nat
  | 0, u, _ => u <<< k
  | fuel + 1, u, v =>
    let lo := if u > v then v else u
    let hi := if u > v then u else v
    let x := hi ^^^ lo
    if x = 0 then lo <<< k else bgcdLoop k fuel lo (x >>> ctz x)

/-- `BGCD(u, v)` (R166). -/
def bgcd (u v : Nat) : Nat :=
  if u = 0 then v
  else if v = 0 then u
  else
    bgcdLoop (min (ctz u) (ctz v)) (deg u + deg v + 1) (u >>> ctz u) (v >>> ctz v)

/-- A row of the Bezout table, in the source's five columns (R170). The q of rows 0 and 1 has no value. -/
structure BezoutRow where
  index : Nat
  r : Nat
  q : Option Nat
  s : Nat
  t : Nat
deriving DecidableEq, Repr

/-- Row i+1 from rows i-1 and i (R170). -/
def nextRow (prev cur : BezoutRow) : BezoutRow :=
  let d := pdivmod prev.r cur.r
  { index := cur.index + 1
    r := d.2
    q := some d.1
    s := prev.s ^^^ clmul d.1 cur.s
    t := prev.t ^^^ clmul d.1 cur.t }

/-- The rows from `prev` on, the table ending with the first row whose remainder is zero (R170). -/
def xeuclidLoop : Nat → BezoutRow → BezoutRow → List BezoutRow
  | 0, prev, cur => [prev, cur]
  | fuel + 1, prev, cur =>
    if cur.r = 0 then [prev, cur]
    else prev :: xeuclidLoop fuel cur (nextRow prev cur)

/-- `XEUCLID(u, v)`: the whole table (R170). Its non-zero remainders after row 0 fall in degree from that
of v (R171), which bounds the loop (log 7). -/
def xeuclid (u v : Nat) : List BezoutRow :=
  xeuclidLoop (deg v + 1) { index := 0, r := u, q := none, s := 1, t := 0 }
    { index := 1, r := v, q := none, s := 0, t := 1 }

/-- The second-to-last row of a table of at least two rows (R151, R170). -/
def secondToLast : List BezoutRow → BezoutRow
  | [a, _] => a
  | _ :: l => secondToLast l
  | [] => { index := 0, r := 0, q := none, s := 0, t := 0 }

/-- `INVCORE(b, w, p)`: the s of the second-to-last row of the table of b and the effective modulus
(44_div_inv.md R151). It tests no gcd (R155; log 5). -/
def invcore (b w p : Nat) : Nat := (secondToLast (xeuclid b (effectiveModulus w p))).s

end Sys2Proof.Machine
end

