-- ==== Sys2Proof/Machine/MulCore.lean ====
section
/-! DEFINITION. `MULCORE`, the shift-and-XOR loop of the multiplier (43_mul.md R141). Its accumulator and
doubled copy are working state of one command (10_state.md R28). -/

namespace Sys2Proof.Machine

/-- One doubling of d inside width w: shift left, drop the x^w term, and fold it back in as p when it
was set (R141). -/
def doubleFold (w p d : Nat) : Nat :=
  let shifted := (d <<< 1) % 2 ^ w
  if d.testBit (w - 1) then shifted ^^^ p else shifted

/-- `n` further passes of the loop, the first at bit position `i` of a. -/
def mulcoreLoop (a w p : Nat) : Nat → Nat → Nat → Nat → Nat
  | 0, _, acc, _ => acc
  | n + 1, i, acc, d =>
    mulcoreLoop a w p n (i + 1) (if a.testBit i then acc ^^^ d else acc) (doubleFold w p d)

/-- `MULCORE(a, b, w, p)`: exactly w passes, a iterated and b doubled (R141). -/
def mulcore (a b w p : Nat) : Nat := mulcoreLoop a w p w 0 0 b

end Sys2Proof.Machine
end

