-- ==== Sys2Proof/Machine/DivInv.lean ====
section
/-! DEFINITION. The inverter and division: DIV and INV (44_div_inv.md). An element with no inverse is no
error: the value is the s of the second-to-last row all the same (R155; log 5). -/

namespace Sys2Proof.Machine

/-- INVCORE of an element's value in the field the element carries (R151). -/
def Element.inverseValue (b : Element) : Nat :=
  invcore b.value.toNat b.width.toNat b.poly.toNat

/-- The quotient: `MULCORE(a, INVCORE(b))`, `DivisionByZero` last (R152, R196). -/
def divResult (rs1 rs2 : Reg) (s : State) : Except ErrorKind Element :=
  match readSameField rs1 rs2 s with
  | .error k => .error k
  | .ok (a, b) =>
    if isZero b then .error .divisionByZero
    else .ok (a.withValue (mulcore a.value.toNat b.inverseValue a.width.toNat a.poly.toNat))

/-- DIV rd, rs1, rs2 (R152). -/
def execDiv (rd rs1 rs2 : Reg) (s : State) : Result :=
  .next (commit rd (divResult rs1 rs2 s) s)

/-- The inverse of an element (R150). -/
def invResult (rs1 : Reg) (s : State) : Except ErrorKind Element :=
  match readSource rs1 s with
  | .error k => .error k
  | .ok b => if isZero b then .error .divisionByZero else .ok (b.withValue b.inverseValue)

/-- INV rd, rs1 (R150). -/
def execInv (rd rs1 : Reg) (s : State) : Result :=
  .next (commit rd (invResult rs1 s) s)

end Sys2Proof.Machine
end

