-- ==== Sys2Proof/Machine/FieldCommands.lean ====
section
/-! DEFINITION. Field construction and element access: CONFIG, COUNT, ELEM, RDV, RDP (41_field.md). -/

namespace Sys2Proof.Machine

/-- CONFIG m, poly (R110). The polynomial is not tested for anything (R111). -/
def execConfig (m poly : Nat) (s : State) : Result :=
  if m = 0 ∨ m > mmax then .next (raise .invalidDegree s)
  else .next (respond (makeField m poly).m (makeField m poly).modulus (s.setField (makeField m poly)))

/-- COUNT (R112). -/
def execCount (s : State) : Result :=
  match readField s with
  | .error k => .next (raise k s)
  | .ok f => .next (respond f.m (2 ^ f.m.toNat) s)

/-- The element ELEM takes: `NoField` before the range test (R113, R196). -/
def elemResult (index : Nat) (s : State) : Except ErrorKind Element :=
  match readField s with
  | .error k => .error k
  | .ok f => elemRead f index

/-- ELEM rd, index (R113). -/
def execElem (rd : Reg) (index : Nat) (s : State) : Result :=
  .next (commit rd (elemResult index s) s)

/-- RDV rs1 (R114). -/
def execRdv (rs1 : Reg) (s : State) : Result :=
  match readSource rs1 s with
  | .error k => .next (raise k s)
  | .ok e => .next (respond e.width e.value.toNat s)

/-- RDP rs1 (R115). -/
def execRdp (rs1 : Reg) (s : State) : Result :=
  match readSource rs1 s with
  | .error k => .next (raise k s)
  | .ok e => .next (respond e.width e.modulus s)

end Sys2Proof.Machine
end

