-- ==== Sys2Proof/Machine/Gcd.lean ====
section
/-! DEFINITION. The greatest common divisor: GCD (45_gcd_bezout.md R165). -/

namespace Sys2Proof.Machine

/-- The gcd of two element values as plain polynomials, carrying the operands' field (R165). -/
def gcdResult (rs1 rs2 : Reg) (s : State) : Except ErrorKind Element :=
  match readSameField rs1 rs2 s with
  | .error k => .error k
  | .ok (a, b) => .ok (a.withValue (bgcd a.value.toNat b.value.toNat))

/-- GCD rd, rs1, rs2 (R165); a zero operand is legal. -/
def execGcd (rd rs1 rs2 : Reg) (s : State) : Result :=
  .next (commit rd (gcdResult rs1 rs2 s) s)

end Sys2Proof.Machine
end

