-- ==== Sys2Proof/Machine/Mul.lean ====
section
/-! DEFINITION. The multiplier: MUL (43_mul.md). -/

namespace Sys2Proof.Machine

/-- The product of two elements of one field (R140, R141). -/
def mulResult (rs1 rs2 : Reg) (s : State) : Except ErrorKind Element :=
  match readSameField rs1 rs2 s with
  | .error k => .error k
  | .ok (a, b) =>
    .ok (a.withValue (mulcore a.value.toNat b.value.toNat a.width.toNat a.poly.toNat))

/-- MUL rd, rs1, rs2 (R140). -/
def execMul (rd rs1 rs2 : Reg) (s : State) : Result :=
  .next (commit rd (mulResult rs1 rs2 s) s)

end Sys2Proof.Machine
end

