-- ==== Sys2Proof/Machine/Dispatch.lean ====
section
/-! DEFINITION. The meaning of every command: one arm per constructor of `Instr` (30_encoding.md R67). -/

namespace Sys2Proof.Machine

def exec (i : Instr) (s : State) : Host.Outcome State Fault Refusal :=
  match i with
  | .config m poly => Sys2Proof.Machine.execConfig m poly s
  | .count => Sys2Proof.Machine.execCount s
  | .elem rd index => Sys2Proof.Machine.execElem rd index s
  | .add rd rs1 rs2 => Sys2Proof.Machine.execAdd rd rs1 rs2 s
  | .sub rd rs1 rs2 => Sys2Proof.Machine.execSub rd rs1 rs2 s
  | .mul rd rs1 rs2 => Sys2Proof.Machine.execMul rd rs1 rs2 s
  | .div rd rs1 rs2 => Sys2Proof.Machine.execDiv rd rs1 rs2 s
  | .inv rd rs1 => Sys2Proof.Machine.execInv rd rs1 s
  | .gcd rd rs1 rs2 => Sys2Proof.Machine.execGcd rd rs1 rs2 s
  | .rdv rs1 => Sys2Proof.Machine.execRdv rs1 s
  | .rdp rs1 => Sys2Proof.Machine.execRdp rs1 s

end Sys2Proof.Machine
end

