-- ==== Sys2Proof/Machine/Ports.lean ====
section
/-! DEFINITION. What one rising edge does (70_reset_and_hazards.md R215, R218, R225): reset, handing over
a response, executing the command in progress, or taking a command. -/

namespace Sys2Proof.Machine

/-- Execute a command word (30_encoding.md R74): its command, or `IllegalCommand` (60_exceptions.md R193),
which comes before every other check and changes no state (R196). -/
def runWord (w : CmdWord) (s : State) : Result :=
  match decode w with
  | .ok i => exec i s
  | .error k => .next (raise k s)

/-- One rising edge with what the host drives at it. Reset prevails over the rest (R215); a pending
response keeps the core from going on (R225); a command in progress is executed, atomically
(00_scope.md R10); an idle core takes the command offered, if any (R225; log 1, log 3). -/
def atEdge (p : PortInput) (s : State) : Result :=
  if p.rst then .next (resetCore (takeResponse p s))
  else
    match s.response, s.command with
    | some _, _ => .next (takeResponse p s)
    | none, some w => runWord w s
    | none, none => .next (acceptCommand p s)

/-- The state in which the very next step executes the word w: the core has taken it from the host and
has not answered it, and the host drives nothing at the coming edge (log 9). -/
def State.withCommand (s : State) (w : CmdWord) : State :=
  { s with command := some w, response := none, inputs := .idle :: s.inputs }

end Sys2Proof.Machine
end

