-- ==== Sys2Proof/Machine/Step.lean ====
section
/-! DEFINITION. One step of the machine: a rising edge of `clk` at which something can happen
(70_reset_and_hazards.md R225; log 1). The step consumes what the host drives at that edge. -/

namespace Sys2Proof.Machine

/-- One rising edge. -/
def step (s : State) : Host.Outcome State Fault Refusal := atEdge (nextInput s) (dropInput s)

/-- The state in which step runs exactly the instruction whose `nbits` table bits are `w` (log 9). -/
def State.withFetchWord (s : State) (nbits w : Nat) : State := s.withCommand (tableWord nbits w)

end Sys2Proof.Machine
end

