-- ==== Sys2Proof/Machine/Asm.lean ====
section
/-! DEFINITION. The written form of a command (30_encoding.md R76): a mnemonic, then its operands
separated by commas, destination first; numbers decimal, hexadecimal with `0x` or binary with `0b`; a
`;` starts a comment. It is a notation only (92_eei_decisions.md D31). Text is a list of characters. -/

namespace Sys2Proof.Machine

/-! ### Writing -/

/-- The mnemonic (R67). -/
def mnemonic : Instr → List Char
  | .config _ _ => ['C', 'O', 'N', 'F', 'I', 'G']
  | .count => ['C', 'O', 'U', 'N', 'T']
  | .elem _ _ => ['E', 'L', 'E', 'M']
  | .add _ _ _ => ['A', 'D', 'D']
  | .sub _ _ _ => ['S', 'U', 'B']
  | .mul _ _ _ => ['M', 'U', 'L']
  | .div _ _ _ => ['D', 'I', 'V']
  | .inv _ _ => ['I', 'N', 'V']
  | .gcd _ _ _ => ['G', 'C', 'D']
  | .rdv _ => ['R', 'D', 'V']
  | .rdp _ => ['R', 'D', 'P']

/-- `E0` to `E3` (R76). -/
def regText : Reg → List Char
  | .E0 => ['E', '0']
  | .E1 => ['E', '1']
  | .E2 => ['E', '2']
  | .E3 => ['E', '3']

/-- A number in decimal (R76). -/
def numberText (n : Nat) : List Char := Nat.toDigits 10 n

/-- The operands in the order destination, first source, second source (R76). -/
def operandTexts : Instr → List (List Char)
  | .config m poly => [numberText m, numberText poly]
  | .count => []
  | .elem rd index => [regText rd, numberText index]
  | .add rd rs1 rs2 => [regText rd, regText rs1, regText rs2]
  | .sub rd rs1 rs2 => [regText rd, regText rs1, regText rs2]
  | .mul rd rs1 rs2 => [regText rd, regText rs1, regText rs2]
  | .div rd rs1 rs2 => [regText rd, regText rs1, regText rs2]
  | .inv rd rs1 => [regText rd, regText rs1]
  | .gcd rd rs1 rs2 => [regText rd, regText rs1, regText rs2]
  | .rdv rs1 => [regText rs1]
  | .rdp rs1 => [regText rs1]

/-- Texts separated by a comma and a blank. -/
def commaSeparated : List (List Char) → List Char
  | [] => []
  | [t] => t
  | t :: ts => t ++ [',', ' '] ++ commaSeparated ts

/-- The written form of a command (R76). -/
def asm (i : Instr) : List Char :=
  match operandTexts i with
  | [] => mnemonic i
  | ts => mnemonic i ++ [' '] ++ commaSeparated ts

/-! ### Reading -/

/-- The digits in the order of their values; base b has the first b of them (R76). -/
def digitOrder : List Char := "0123456789ABCDEF".toList

/-- The value of a digit of the base: its place in the order, letters in either case (log 15). -/
def digitIn (base : Nat) (c : Char) : Option Nat := (digitOrder.take base).idxOf? c.toUpper

/-- Digits of a base, most significant first, after the value read so far. -/
def readDigits (base : Nat) : List Char → Nat → Option Nat
  | [], n => some n
  | c :: cs, n => (digitIn base c).bind fun d => readDigits base cs (n * base + d)

/-- A number: decimal, `0x` hexadecimal or `0b` binary (R76), with at least one digit. -/
def readNumber : List Char → Option Nat
  | '0' :: 'x' :: c :: cs => readDigits 16 (c :: cs) 0
  | '0' :: 'b' :: c :: cs => readDigits 2 (c :: cs) 0
  | c :: cs => readDigits 10 (c :: cs) 0
  | [] => none

/-- A register name (R76). -/
def readReg (t : List Char) : Option Reg :=
  if t = ['E', '0'] then some .E0
  else if t = ['E', '1'] then some .E1
  else if t = ['E', '2'] then some .E2
  else if t = ['E', '3'] then some .E3
  else none

/-- A token read so far, letters last first, before further tokens. -/
def pushToken (letters : List Char) (ts : List (List Char)) : List (List Char) :=
  match letters with
  | [] => ts
  | _ => letters.reverse :: ts

/-- The tokens of a line: blanks separate, a comma is a token, `;` starts a comment (R76). -/
def tokens : List Char → List Char → List (List Char)
  | [], letters => pushToken letters []
  | c :: cs, letters =>
    if c = ';' then pushToken letters []
    else if c = ',' then pushToken letters ([','] :: tokens cs [])
    else if c = ' ' ∨ c = '\t' then pushToken letters (tokens cs [])
    else tokens cs (c :: letters)

/-- The operands: tokens with one comma between each two. -/
def operands : List (List Char) → Option (List (List Char))
  | [] => some []
  | [t] => if t = [','] then none else some [t]
  | t :: c :: ts =>
    if t ≠ [','] ∧ c = [','] ∧ ts ≠ [] then (operands ts).map (t :: ·) else none

/-- A command of three registers. -/
def readR (make : Reg → Reg → Reg → Instr) : List (List Char) → Option Instr
  | [d, a, b] =>
    match readReg d, readReg a, readReg b with
    | some rd, some rs1, some rs2 => some (make rd rs1 rs2)
    | _, _, _ => none
  | _ => none

/-- A command of one register. -/
def readS (make : Reg → Instr) : List (List Char) → Option Instr
  | [a] => (readReg a).map make
  | _ => none

/-- The command a mnemonic and its operands write (R76). -/
def readCommand (name : List Char) (ops : List (List Char)) : Option Instr :=
  if name = ['C', 'O', 'N', 'F', 'I', 'G'] then
    match ops with
    | [a, b] =>
      match readNumber a, readNumber b with
      | some m, some poly => some (.config m poly)
      | _, _ => none
    | _ => none
  else if name = ['C', 'O', 'U', 'N', 'T'] then
    match ops with
    | [] => some .count
    | _ => none
  else if name = ['E', 'L', 'E', 'M'] then
    match ops with
    | [a, b] =>
      match readReg a, readNumber b with
      | some rd, some index => some (.elem rd index)
      | _, _ => none
    | _ => none
  else if name = ['A', 'D', 'D'] then readR .add ops
  else if name = ['S', 'U', 'B'] then readR .sub ops
  else if name = ['M', 'U', 'L'] then readR .mul ops
  else if name = ['D', 'I', 'V'] then readR .div ops
  else if name = ['I', 'N', 'V'] then
    match ops with
    | [a, b] =>
      match readReg a, readReg b with
      | some rd, some rs1 => some (.inv rd rs1)
      | _, _ => none
    | _ => none
  else if name = ['G', 'C', 'D'] then readR .gcd ops
  else if name = ['R', 'D', 'V'] then readS .rdv ops
  else if name = ['R', 'D', 'P'] then readS .rdp ops
  else none

/-- The command a line writes, when it writes one whose operands fit their fields (R61, R76). -/
def assemble (line : List Char) : Option Instr :=
  match tokens line [] with
  | [] => none
  | name :: rest =>
    match operands rest with
    | none => none
    | some ops =>
      match readCommand name ops with
      | none => none
      | some i => if i.wellFormed then some i else none

end Sys2Proof.Machine
end

