-- ==== Sys2Proof/Machine/Run.lean ====
section
/-! DEFINITION. A run (70_reset_and_hazards.md R228): a list of command words given to the core in order,
each answered by one response word, which the host takes (20_memory.md R48). -/

namespace Sys2Proof.Machine

/-- The host ready to take a response, and driving nothing else. -/
def PortInput.ready : PortInput := { rst := false, cmd := none, rspReady := true }

/-- What the host drives for one command: it offers the word, waits, and takes the response (R225). -/
def driveCommand (w : CmdWord) : List PortInput :=
  [{ rst := false, cmd := some w, rspReady := false }, .idle, .ready]

/-- What the host drives for a list of commands. -/
def driveCommands : List CmdWord → List PortInput
  | [] => []
  | w :: ws => driveCommand w ++ driveCommands ws

/-- The function from (state, command word) to (state, response word), applied to the words in order
(R225, R228): execute each word and hand its response over. -/
def runCommands : List CmdWord → State → Result
  | [], s => .next s
  | w :: ws, s =>
    match runWord w s with
    | .next t => runCommands ws (takeResponse .ready t)
    | .fault r => .fault r
    | .refused r => .refused r

end Sys2Proof.Machine
end

