-- ==== Sys2Proof/Safety.lean ====
section
/-! DEFINITION. The terms claims are made in: the invariant of the machine (10_state.md R20, R22, R30;
41_field.md R114; 30_encoding.md R64; 70_reset_and_hazards.md R225), what a command leaves unchanged
(R24), response words as numbers (95_test_vectors.md, notation), the masks of R63, irreducibility
(93_implementation_defined.md U1) and the host's duty on `cmd_word` (R225). -/

namespace Sys2Proof.Machine

/-! ### The invariant -/

/-- `1 <= width <= MMAX` with both bit vectors below `2^width` (R30). -/
abbrev Element.Fits (e : Element) : Prop :=
  1 ≤ e.width.toNat ∧ e.width.toNat ≤ 32 ∧
    e.value.toNat < 2 ^ e.width.toNat ∧ e.poly.toNat < 2 ^ e.width.toNat

/-- The legal values of `F.m` and `F.p` when valid (R20). -/
abbrev FieldConfig.Fits (f : FieldConfig) : Prop :=
  1 ≤ f.m.toNat ∧ f.m.toNat ≤ 32 ∧ f.p.toNat < 2 ^ f.m.toNat

/-- A response word the core can give (R64, R66, R185): Z zero; STATUS 0 with a WIDTH of 1 to 32, or a
code of 1 to 4 or 7 to 9 with WIDTH and VALUE zero. -/
abbrev LegalResponse (r : RspWord) : Prop :=
  zeroOf r = 0 ∧
    ((statusOf r = 0 ∧ 1 ≤ (widthOf r).toNat ∧ (widthOf r).toNat ≤ 32) ∨
      (((1 ≤ (statusOf r).toNat ∧ (statusOf r).toNat ≤ 4) ∨
          (7 ≤ (statusOf r).toNat ∧ (statusOf r).toNat ≤ 9)) ∧
        widthOf r = 0 ∧ valueOf r = 0))

/-- What holds of the machine in every state a run reaches. -/
structure State.Inv (s : State) : Prop where
  /-- The field configuration is legal (R20). -/
  field : ∀ f, s.field = some f → f.Fits
  /-- Every non-empty register holds a legal element (R30). -/
  regs : ∀ r e, s.reg r = some e → e.Fits
  /-- "A non-empty register while `F == none` cannot arise" (R114). -/
  noField : s.field = none → ∀ r, s.reg r = none
  /-- At most one command is outstanding (R225). -/
  oneOutstanding : s.command = none ∨ s.response = none
  /-- The pending response is one the core can give (R64). -/
  response : ∀ r, s.response = some r → LegalResponse r
  /-- So is every response handed over. -/
  received : ∀ r, r ∈ s.received → LegalResponse r

/-! ### What a command changes -/

/-- A response word written `STATUS << 60 | WIDTH << 54 | VALUE` (R64). -/
def rspNumber (status width value : Nat) : RspWord :=
  BitVec.ofNat 64 (status * 2 ^ 60 + width * 2 ^ 54 + value)

/-- The command has ended with the response r, and the host's side is as it was (R24, R225). -/
def Ends (s t : State) (r : RspWord) : Prop :=
  t.command = none ∧ t.response = some r ∧ t.inputs = s.inputs ∧ t.received = s.received

/-- `F` and all four registers are as they were. -/
def SameCore (s t : State) : Prop := t.field = s.field ∧ ∀ r, t.reg r = s.reg r

/-- `E[rd]` holds e; `F` and the other registers are as they were (R24). -/
def Writes (s t : State) (rd : Reg) (e : Element) : Prop :=
  t.field = s.field ∧ t.reg rd = some e ∧ ∀ r, r ≠ rd → t.reg r = s.reg r

/-- The command ended with the error code and wrote no state (R66, R190). -/
def Raises (s t : State) (code : Nat) : Prop := SameCore s t ∧ Ends s t (rspNumber code 0 0)

/-- Every non-empty register holds an element of the present field: its width and its polynomial copy are
those of `F` (60_exceptions.md R188, the life of one field). -/
def State.OfOneField (s : State) : Prop :=
  ∀ r e, s.reg r = some e → ∃ f, s.field = some f ∧ e.width = f.m ∧ e.poly = f.p

/-- The element register a command may write (R24). -/
def destination : Instr → Option Reg
  | .config _ _ => none
  | .count => none
  | .elem rd _ => some rd
  | .add rd _ _ => some rd
  | .sub rd _ _ => some rd
  | .mul rd _ _ => some rd
  | .div rd _ _ => some rd
  | .inv rd _ => some rd
  | .gcd rd _ _ => some rd
  | .rdv _ => none
  | .rdp _ => none

/-- The command is a CONFIG, the only one that writes `F` (R20, R24). -/
def isConfig : Instr → Bool
  | .config _ _ => true
  | .count => false
  | .elem _ _ => false
  | .add _ _ _ => false
  | .sub _ _ _ => false
  | .mul _ _ _ => false
  | .div _ _ _ => false
  | .inv _ _ => false
  | .gcd _ _ _ => false
  | .rdv _ => false
  | .rdp _ => false

/-- The source registers a command names (R24). -/
def sources : Instr → List Reg
  | .config _ _ => []
  | .count => []
  | .elem _ _ => []
  | .add _ rs1 rs2 => [rs1, rs2]
  | .sub _ rs1 rs2 => [rs1, rs2]
  | .mul _ rs1 rs2 => [rs1, rs2]
  | .div _ rs1 rs2 => [rs1, rs2]
  | .inv _ rs1 => [rs1]
  | .gcd _ rs1 rs2 => [rs1, rs2]
  | .rdv rs1 => [rs1]
  | .rdp rs1 => [rs1]

/-- The command reads `F`: COUNT and ELEM only (R20, R24). -/
def readsField : Instr → Bool
  | .config _ _ => false
  | .count => true
  | .elem _ _ => true
  | .add _ _ _ => false
  | .sub _ _ _ => false
  | .mul _ _ _ => false
  | .div _ _ _ => false
  | .inv _ _ => false
  | .gcd _ _ _ => false
  | .rdv _ => false
  | .rdp _ => false

/-! ### Fields over GF(2) -/

/-- `x^m + p` has no factor of degree 1 to m-1 over GF(2) (93_implementation_defined.md U1; log 21). -/
def Irreducible (m p : Nat) : Prop :=
  ∀ f g, clmul f g = effectiveModulus m p → ¬ (1 ≤ deg f ∧ deg f < m)

/-- The polynomial d divides a over GF(2). -/
def PolyDivides (d a : Nat) : Prop := ∃ c, clmul d c = a

/-! ### The host's duty -/

/-- "While `cmd_valid` is 1 and `cmd_ready` is 0 the host holds `cmd_word` unchanged" (R225): of an
offer the core cannot take at this edge, the host makes the same offer at the next. The model does not
force it (log 11). -/
def HostHolds (s : State) : Prop :=
  ∀ w, (nextInput s).cmd = some w → cmdReady s = false → (nextInput s).rst = false →
    (nextInput (dropInput s)).cmd = some w

end Sys2Proof.Machine

namespace Sys2Proof

/-- The mask of a command's row (30_encoding.md R63; spec/opcode_table.json). -/
def rowMask : Instr → CmdWord
  | .config _ _ => 0xFFC0FFFE00000000
  | .count => 0xFFFFFFFFFFFFFFFF
  | .elem _ _ => 0xF3FFFFFE00000000
  | .add _ _ _ => 0xF03FFFFFFFFFFFFF
  | .sub _ _ _ => 0xF03FFFFFFFFFFFFF
  | .mul _ _ _ => 0xF03FFFFFFFFFFFFF
  | .div _ _ _ => 0xF03FFFFFFFFFFFFF
  | .inv _ _ => 0xF0FFFFFFFFFFFFFF
  | .gcd _ _ _ => 0xF03FFFFFFFFFFFFF
  | .rdv _ => 0xFCFFFFFFFFFFFFFF
  | .rdp _ => 0xFCFFFFFFFFFFFFFF

/-- The match value of a command's row: `OPC << 60` (R63). -/
def rowMatch : Instr → CmdWord
  | .config _ _ => 0x1000000000000000
  | .count => 0x2000000000000000
  | .elem _ _ => 0x3000000000000000
  | .add _ _ _ => 0x4000000000000000
  | .sub _ _ _ => 0x5000000000000000
  | .mul _ _ _ => 0x6000000000000000
  | .div _ _ _ => 0x7000000000000000
  | .inv _ _ => 0x8000000000000000
  | .gcd _ _ _ => 0x9000000000000000
  | .rdv _ => 0xA000000000000000
  | .rdp _ => 0xB000000000000000

end Sys2Proof
end

