-- ==== Sys2Proof/Certificates/Slice0/Obligations.lean ====
section
/-! DEFINITION. The statements for the provers. Each docstring names the rule of spec/ the statement
formalises. `Writes`, `Raises`, `Ends`, `SameCore` (Safety.lean) say what a command changed and what it
left as it was; `rspNumber status width value` is a response word written as a number (R64). -/

open Sys2Proof Sys2Proof.Machine

/-! ### Reset -/

/-- R29: after reset there is no field, every register is empty, no command is in progress and no
response is pending. -/
def Obligations.ResetLeavesNothing : Prop :=
  State.reset.field = none ∧ (∀ r, State.reset.reg r = none) ∧ State.reset.command = none ∧
    State.reset.response = none

/-- The invariant holds of the reset state (R20, R29, R30). -/
def Obligations.ResetMeetsInvariant : Prop := State.reset.Inv

/-- R215, R218: an edge with `rst = 1` leaves the core in the reset state, whatever it was doing; a
command in progress gets no response, and a response that is not taken at that edge is dropped. The host
keeps the responses it had. -/
def Obligations.ResetEdgeDropsAll : Prop :=
  ∀ s : State, (nextInput s).rst = true →
    ∃ t, step s = .next t ∧ t.field = none ∧ (∀ r, t.reg r = none) ∧ t.command = none ∧
      t.response = none ∧ t.inputs = s.inputs.tail ∧
      ((nextInput s).rspReady = false ∨ s.response = none → t.received = s.received)

/-- R215: at an edge with `rst = 1` the core goes to the reset state of R29, and "Reset is the only way
`F` becomes `none` and the only way a register becomes empty." -/
def Obligations.OnlyResetEmpties : Prop :=
  ∀ s t : State, step s = .next t →
    ((nextInput s).rst = true →
      t.field = none ∧ (∀ r, t.reg r = none) ∧ t.command = none ∧ t.response = none) ∧
      ((nextInput s).rst = false →
        (s.field ≠ none → t.field ≠ none) ∧ ∀ r, s.reg r ≠ none → t.reg r ≠ none)

/-- R216, which the spec marks as its own inference "[derived: from 10_state.md rule R29 and
60_exceptions.md rules R194, R195]": where nothing has been written since reset, COUNT and ELEM raise
`NoField` (8) and every other command but CONFIG raises `EmptyRegister` (9). -/
def Obligations.OnlyConfigSucceedsAfterReset : Prop :=
  ∀ (s : State) (i : Instr), s.field = none → (∀ r, s.reg r = none) → isConfig i = false →
    ∃ t, exec i s = .next t ∧ Raises s t (if readsField i then 8 else 9)

/-! ### Encoding -/

/-- Command words written out from the field table (R61, R67) decode to the commands they stand for. -/
def Obligations.DecodesSpecWords : Prop :=
  decode 0x1004000000000013 = .ok (.config 4 19) ∧
    decode 0x2000000000000000 = .ok .count ∧
    decode 0x34000001FFFFFFFF = .ok (.elem .E1 0x1FFFFFFFF) ∧
    decode 0x4D00000000000000 = .ok (.add .E3 .E1 .E0) ∧
    decode 0x7840000000000000 = .ok (.div .E2 .E0 .E1) ∧
    decode 0x8400000000000000 = .ok (.inv .E1 .E0) ∧
    decode 0xB200000000000000 = .ok (.rdp .E2) ∧
    decode 0x0000000000000000 = .error .illegalCommand

/-- Decoding the word of a well-formed command gives the command, every operand at every value its field
admits (R61, R62, R67, R74). -/
def Obligations.DecodeOfEncode : Prop :=
  ∀ i : Instr, i.WellFormed → decode (encode i) = .ok i

/-- A word that decodes is the word of its command, which is well formed: no bit of a legal word is
dropped (R61, R63, R74). -/
def Obligations.EncodeOfDecode : Prop :=
  ∀ (w : CmdWord) (i : Instr), decode w = .ok i → i.WellFormed ∧ encode i = w

/-- R63: `(cmd AND mask) == match` holds exactly for the legal words of a row; a word that fits no row,
a must-be-zero bit of it being 1 or its opcode not assigned, is `IllegalCommand`. -/
def Obligations.LegalWordsMatchMasks : Prop :=
  (∀ (w : CmdWord) (i : Instr), decode w = .ok i → w &&& rowMask i = rowMatch i) ∧
    (∀ (w : CmdWord) (i : Instr), w &&& rowMask i = rowMatch i →
      ∃ j, decode w = .ok j ∧ rowMatch j = rowMatch i) ∧
    ∀ w : CmdWord, (∀ i : Instr, w &&& rowMask i ≠ rowMatch i) → decode w = .error .illegalCommand

/-- The written form of a well-formed command reads back as the command (R76). -/
def Obligations.AssemblerReadsWhatItWrites : Prop :=
  ∀ i : Instr, i.WellFormed → assemble (asm i) = some i

/-! ### The step and the channels -/

/-- A step runs the decoded command: with a command in progress and no reset, the step is `exec` of it,
or the `IllegalCommand` response, the input of that edge consumed (R10, R74; the edges a command takes
are left out, log 1). -/
def Obligations.StepRunsCommand : Prop :=
  ∀ (s : State) (w : CmdWord), s.command = some w → s.response = none → (nextInput s).rst = false →
    (∀ i, decode w = .ok i → step s = exec i (dropInput s)) ∧
      (∀ k, decode w = .error k → ∃ t, step s = .next t ∧ Raises (dropInput s) t 7)

/-- R225: a command is handed over at an edge at which `cmd_valid` and `cmd_ready` are both 1. That nothing
else changes at that edge (no response yet, `F` and the registers kept) is the model's choice: a command
taken at one step is executed at the next (log 1; R226 gives no number of cycles). -/
def Obligations.IdleCoreTakesCommand : Prop :=
  ∀ (s : State) (w : CmdWord), cmdReady s = true → (nextInput s).rst = false →
    (nextInput s).cmd = some w →
    ∃ t, step s = .next t ∧ t.command = some w ∧ t.response = none ∧ SameCore s t ∧
      t.inputs = s.inputs.tail ∧ t.received = s.received

/-- R225: a pending response is held unchanged while `rsp_ready` is 0 and handed over, once, when it is
1; no command is taken at that edge. -/
def Obligations.ResponseHeldUntilTaken : Prop :=
  ∀ (s : State) (r : RspWord), s.response = some r → (nextInput s).rst = false →
    ∃ t, step s = .next t ∧ SameCore s t ∧ t.command = s.command ∧ t.inputs = s.inputs.tail ∧
      t.response = (if (nextInput s).rspReady then none else some r) ∧
      t.received = (if (nextInput s).rspReady then s.received ++ [r] else s.received)

/-- R225: while `cmd_ready` is 0 the core takes no word; and the word of a host that holds its offer while
the core is not ready (HostHolds, the host's duty: log 11) is the one taken at the first edge at which the
core is ready, however many edges that takes. That the word is still in progress after that edge, with
`F` and the registers kept, is the model's choice: a command taken at one step is executed at the next
(log 1; R226 gives no number of cycles). -/
def Obligations.OfferStandsUntilTaken : Prop :=
  (∀ s t : State, cmdReady s = false → step s = .next t → t.command = none ∨ t.command = s.command) ∧
    ∀ (n : Nat) (s u : State) (w : CmdWord), (nextInput s).cmd = some w →
      Host.Core.run Sys2Proof.core n s = .next u →
      (∀ k v, k < n → Host.Core.run Sys2Proof.core k s = .next v →
        cmdReady v = false ∧ HostHolds v ∧ (nextInput v).rst = false) →
      cmdReady u = true → (nextInput u).rst = false →
      ∃ t, step u = .next t ∧ t.command = some w ∧ SameCore u t

/-- R206, R216: a core with nothing to do, offered nothing, keeps all its state. -/
def Obligations.IdleCoreKeepsState : Prop :=
  ∀ s : State, cmdReady s = true → (nextInput s).rst = false → (nextInput s).cmd = none →
    step s = .next (dropInput s)

/-- R190, and R227, which the spec marks as its own inference "[derived: from 43_mul.md rule R141 ...]":
the machine never stops: every state has a next one. -/
def Obligations.StepAlwaysGoesOn : Prop := ∀ s : State, ∃ t, step s = .next t

/-- Every step keeps the invariant: elements fit their widths (R30, which the spec marks as its own
inference "[derived: from rules R22, R113, R130, R140, R150, R152, R165]"), `F` is legal (R20), no
element without a field (R114), one command outstanding (R225), every response a legal one (R64,
R185). -/
def Obligations.StepKeepsInvariant : Prop :=
  ∀ s t : State, s.Inv → step s = .next t → t.Inv

/-- R225, R228: driving the ports for a list of commands, three edges each, is running the commands in
order, each response handed over (the edges a command takes are left out, log 1). -/
def Obligations.PortRunIsCommandRun : Prop :=
  ∀ (ws : List CmdWord) (s : State) (rest : List PortInput), s.command = none → s.response = none →
    s.inputs = driveCommands ws ++ rest →
    Host.Core.run Sys2Proof.core (3 * ws.length) s = runCommands ws { s with inputs := rest }

/-- R48, R228: a run of n command words ends with the core idle and exactly n responses handed over,
after those the host had. -/
def Obligations.RunAnswersEachCommand : Prop :=
  ∀ (ws : List CmdWord) (s : State), s.command = none → s.response = none →
    ∃ t, runCommands ws s = .next t ∧ t.command = none ∧ t.response = none ∧
      ∃ rs : List RspWord, t.received = s.received ++ rs ∧ rs.length = ws.length

/-! ### What every command does -/

/-- R10, R229: every command completes with exactly one response and is no longer in progress. -/
def Obligations.EveryCommandAnswers : Prop :=
  ∀ (i : Instr) (s : State), ∃ t r, exec i s = .next t ∧ Ends s t r

/-- R24: a command changes no register but its destination; only CONFIG changes `F` and with it the
element table. -/
def Obligations.CommandFrame : Prop :=
  ∀ (i : Instr) (s t : State), exec i s = .next t →
    (∀ r, destination i ≠ some r → t.reg r = s.reg r) ∧
      (isConfig i = false → t.field = s.field ∧ ∀ n, t.tableEntry n = s.tableEntry n) ∧
      t.inputs = s.inputs ∧ t.received = s.received ∧ t.command = none

/-- R24: the response of a command, and the element it writes, depend only on its source registers and,
for COUNT and ELEM, on `F`. -/
def Obligations.CommandReadsOnlySources : Prop :=
  ∀ (i : Instr) (s s' t t' : State), (∀ r, r ∈ sources i → s.reg r = s'.reg r) →
    (readsField i = true → s.field = s'.field) → exec i s = .next t → exec i s' = .next t' →
    t.response = t'.response ∧
      ∀ w rd, t.response = some w → statusOf w = 0 → destination i = some rd → t.reg rd = t'.reg rd

/-- R66, R190: a command word that is answered with an error writes no state, and the response carries
the code and nothing else. -/
def Obligations.ErrorKeepsState : Prop :=
  ∀ (w : CmdWord) (s t : State) (r : RspWord), runWord w s = .next t → t.response = some r →
    statusOf r ≠ 0 →
    SameCore s t ∧ t.command = none ∧ t.inputs = s.inputs ∧ t.received = s.received ∧
      widthOf r = 0 ∧ zeroOf r = 0 ∧ valueOf r = 0

/-- R41: the element table has exactly 2^m entries, entry i being `(i, m, p)`, and none while `F =
none`; its contents are a function of `F`, so only a CONFIG or a reset changes it: every other step
leaves every entry as it was. -/
def Obligations.TableIsFunctionOfField : Prop :=
  (∀ (s : State) (n : Nat), s.Inv →
    (s.field = none → s.tableEntry n = none) ∧
      ∀ f, s.field = some f →
        (n < 2 ^ f.m.toNat → ∃ e, s.tableEntry n = some e ∧ e.value.toNat = n ∧ e.width = f.m ∧
          e.poly = f.p) ∧
        (2 ^ f.m.toNat ≤ n → s.tableEntry n = none)) ∧
    ∀ s t : State, step s = .next t → (nextInput s).rst = false →
      (∀ w m poly, s.command = some w → decode w ≠ .ok (.config m poly)) →
      ∀ n, t.tableEntry n = s.tableEntry n

/-- R188, of the life of one field: while every non-empty register holds an element of the present
field, a command other than CONFIG keeps it so and does not answer `IncompatibleOperands` (3). -/
def Obligations.OneFieldStaysCompatible : Prop :=
  ∀ (i : Instr) (s t : State), s.OfOneField → isConfig i = false → exec i s = .next t →
    t.OfOneField ∧ t.response ≠ some (rspNumber 3 0 0)

/-! ### The commands -/

/-- R110: CONFIG, at its one encoding, stores m and the low m bits of the polynomial, keeps every
register, and answers m and `2^m + p`; a degree of 0 or above 32 raises `InvalidDegree` (1). -/
def Obligations.ConfigStoresField : Prop :=
  ∀ (s : State) (m poly : Nat),
    (∀ w, decode w = .ok (.config m poly) ↔
      m < 2 ^ 6 ∧ poly < 2 ^ 33 ∧ w = packFields 0x1 0 0 0 m poly) ∧
    (1 ≤ m → m ≤ 32 →
      ∃ t, exec (.config m poly) s = .next t ∧
        t.field = some { m := BitVec.ofNat 6 m, p := BitVec.ofNat 32 (poly % 2 ^ m) } ∧
        (∀ r, t.reg r = s.reg r) ∧ Ends s t (rspNumber 0 m (2 ^ m + poly % 2 ^ m))) ∧
      (m = 0 ∨ 32 < m → ∃ t, exec (.config m poly) s = .next t ∧ Raises s t 1)

/-- R112: COUNT, one legal word, answers m and 2^m, or raises `NoField` (8). -/
def Obligations.CountAnswersElements : Prop :=
  ∀ s : State, s.Inv →
    (∀ w, decode w = .ok .count ↔ w = 0x2000000000000000) ∧
    (∀ f, s.field = some f →
      ∃ t, exec .count s = .next t ∧ SameCore s t ∧
        Ends s t (rspNumber 0 f.m.toNat (2 ^ f.m.toNat))) ∧
      (s.field = none → ∃ t, exec .count s = .next t ∧ Raises s t 8)

/-- R113: ELEM, at its encoding, writes the element (index, m, p) and answers m and the index; with no
field it raises `NoField` (8), and with an index of 2^m or more `IndexOutOfRange` (2). -/
def Obligations.ElemWritesElement : Prop :=
  ∀ (s : State) (rd : Reg) (index : Nat), s.Inv →
    (∀ w, decode w = .ok (.elem rd index) ↔
      index < 2 ^ 33 ∧ w = packFields 0x3 (regNumber rd) 0 0 0 index) ∧
    (∀ f, s.field = some f → index < 2 ^ f.m.toNat →
      ∃ t, exec (.elem rd index) s = .next t ∧
        Writes s t rd { value := BitVec.ofNat 32 index, width := f.m, poly := f.p } ∧
        Ends s t (rspNumber 0 f.m.toNat index)) ∧
      (s.field = none → ∃ t, exec (.elem rd index) s = .next t ∧ Raises s t 8) ∧
      (∀ f, s.field = some f → 2 ^ f.m.toNat ≤ index →
        ∃ t, exec (.elem rd index) s = .next t ∧ Raises s t 2)

/-- R114: RDV, at its encoding, answers the width and the value of the element, or raises
`EmptyRegister` (9). -/
def Obligations.RdvAnswersValue : Prop :=
  ∀ (s : State) (rs1 : Reg),
    (∀ w, decode w = .ok (.rdv rs1) ↔ w = packFields 0xA 0 (regNumber rs1) 0 0 0) ∧
    (∀ e, s.reg rs1 = some e →
      ∃ t, exec (.rdv rs1) s = .next t ∧ SameCore s t ∧
        Ends s t (rspNumber 0 e.width.toNat e.value.toNat)) ∧
      (s.reg rs1 = none → ∃ t, exec (.rdv rs1) s = .next t ∧ Raises s t 9)

/-- R115: RDP, at its encoding, answers the width and the effective modulus the element carries, or
raises `EmptyRegister` (9). -/
def Obligations.RdpAnswersModulus : Prop :=
  ∀ (s : State) (rs1 : Reg), s.Inv →
    (∀ w, decode w = .ok (.rdp rs1) ↔ w = packFields 0xB 0 (regNumber rs1) 0 0 0) ∧
    (∀ e, s.reg rs1 = some e →
      ∃ t, exec (.rdp rs1) s = .next t ∧ SameCore s t ∧
        Ends s t (rspNumber 0 e.width.toNat (2 ^ e.width.toNat + e.poly.toNat))) ∧
      (s.reg rs1 = none → ∃ t, exec (.rdp rs1) s = .next t ∧ Raises s t 9)

/-- R130: ADD, at its encoding, writes the XOR with the first operand's width and polynomial; an empty
source raises `EmptyRegister` (9), unequal widths `IncompatibleOperands` (3). -/
def Obligations.AddWritesXor : Prop :=
  ∀ (s : State) (rd rs1 rs2 : Reg),
    (∀ w, decode w = .ok (.add rd rs1 rs2) ↔
      w = packFields 0x4 (regNumber rd) (regNumber rs1) (regNumber rs2) 0 0) ∧
    (∀ a b, s.reg rs1 = some a → s.reg rs2 = some b → a.width = b.width →
      ∃ t, exec (.add rd rs1 rs2) s = .next t ∧
        Writes s t rd { value := a.value ^^^ b.value, width := a.width, poly := a.poly } ∧
        Ends s t (rspNumber 0 a.width.toNat (a.value ^^^ b.value).toNat)) ∧
      (s.reg rs1 = none ∨ s.reg rs2 = none →
        ∃ t, exec (.add rd rs1 rs2) s = .next t ∧ Raises s t 9) ∧
      (∀ a b, s.reg rs1 = some a → s.reg rs2 = some b → a.width ≠ b.width →
        ∃ t, exec (.add rd rs1 rs2) s = .next t ∧ Raises s t 3)

/-- R131: SUB, at its encoding, writes the XOR with the first operand's width and polynomial, under the
same checks as ADD. -/
def Obligations.SubWritesXor : Prop :=
  ∀ (s : State) (rd rs1 rs2 : Reg),
    (∀ w, decode w = .ok (.sub rd rs1 rs2) ↔
      w = packFields 0x5 (regNumber rd) (regNumber rs1) (regNumber rs2) 0 0) ∧
    (∀ a b, s.reg rs1 = some a → s.reg rs2 = some b → a.width = b.width →
      ∃ t, exec (.sub rd rs1 rs2) s = .next t ∧
        Writes s t rd { value := a.value ^^^ b.value, width := a.width, poly := a.poly } ∧
        Ends s t (rspNumber 0 a.width.toNat (a.value ^^^ b.value).toNat)) ∧
      (s.reg rs1 = none ∨ s.reg rs2 = none →
        ∃ t, exec (.sub rd rs1 rs2) s = .next t ∧ Raises s t 9) ∧
      (∀ a b, s.reg rs1 = some a → s.reg rs2 = some b → a.width ≠ b.width →
        ∃ t, exec (.sub rd rs1 rs2) s = .next t ∧ Raises s t 3)

/-- R131, and R132, which the spec marks as its own inference "[derived: from rules R130, R131 ...]":
SUB and ADD of the same operands are the same operation; exchanging the operands of ADD leaves the
response as it was. -/
def Obligations.AddSubAgreeAndCommute : Prop :=
  ∀ (s : State) (rd rs1 rs2 : Reg), exec (.sub rd rs1 rs2) s = exec (.add rd rs1 rs2) s ∧
    ∀ t u, exec (.add rd rs1 rs2) s = .next t → exec (.add rd rs2 rs1) s = .next u →
      t.response = u.response

/-- R140: MUL, at its encoding, writes `MULCORE` of the values; an empty source raises `EmptyRegister`
(9), unequal widths or polynomials `IncompatibleOperands` (3). -/
def Obligations.MulWritesProduct : Prop :=
  ∀ (s : State) (rd rs1 rs2 : Reg), s.Inv →
    (∀ w, decode w = .ok (.mul rd rs1 rs2) ↔
      w = packFields 0x6 (regNumber rd) (regNumber rs1) (regNumber rs2) 0 0) ∧
    (∀ a b, s.reg rs1 = some a → s.reg rs2 = some b → a.width = b.width → a.poly = b.poly →
      ∃ t v, v = mulcore a.value.toNat b.value.toNat a.width.toNat a.poly.toNat ∧
        exec (.mul rd rs1 rs2) s = .next t ∧
        Writes s t rd { value := BitVec.ofNat 32 v, width := a.width, poly := a.poly } ∧
        v < 2 ^ a.width.toNat ∧ Ends s t (rspNumber 0 a.width.toNat v)) ∧
      (s.reg rs1 = none ∨ s.reg rs2 = none →
        ∃ t, exec (.mul rd rs1 rs2) s = .next t ∧ Raises s t 9) ∧
      (∀ a b, s.reg rs1 = some a → s.reg rs2 = some b → ¬ (a.width = b.width ∧ a.poly = b.poly) →
        ∃ t, exec (.mul rd rs1 rs2) s = .next t ∧ Raises s t 3)

/-- R152: DIV, at its encoding, completes for every divisor that is not zero, and where the gcd of the
divisor and the modulus is 1 it writes `MULCORE(a, INVCORE(b))`; an empty source raises `EmptyRegister`
(9), unequal widths or polynomials `IncompatibleOperands` (3), then a divisor of value 0
`DivisionByZero` (4). The premise on the gcd is the one U2 asks for. -/
def Obligations.DivWritesQuotient : Prop :=
  ∀ (s : State) (rd rs1 rs2 : Reg), s.Inv →
    (∀ w, decode w = .ok (.div rd rs1 rs2) ↔
      w = packFields 0x7 (regNumber rd) (regNumber rs1) (regNumber rs2) 0 0) ∧
    (∀ a b, s.reg rs1 = some a → s.reg rs2 = some b → a.width = b.width → a.poly = b.poly →
      b.value ≠ 0 →
      ∃ t v, exec (.div rd rs1 rs2) s = .next t ∧
        Writes s t rd { value := BitVec.ofNat 32 v, width := a.width, poly := a.poly } ∧
        v < 2 ^ a.width.toNat ∧ Ends s t (rspNumber 0 a.width.toNat v) ∧
        (bgcd b.value.toNat (2 ^ b.width.toNat + b.poly.toNat) = 1 →
          v = mulcore a.value.toNat (invcore b.value.toNat b.width.toNat b.poly.toNat)
            a.width.toNat a.poly.toNat)) ∧
      (s.reg rs1 = none ∨ s.reg rs2 = none →
        ∃ t, exec (.div rd rs1 rs2) s = .next t ∧ Raises s t 9) ∧
      (∀ a b, s.reg rs1 = some a → s.reg rs2 = some b → ¬ (a.width = b.width ∧ a.poly = b.poly) →
        ∃ t, exec (.div rd rs1 rs2) s = .next t ∧ Raises s t 3) ∧
      (∀ a b, s.reg rs1 = some a → s.reg rs2 = some b → a.width = b.width → a.poly = b.poly →
        b.value = 0 → ∃ t, exec (.div rd rs1 rs2) s = .next t ∧ Raises s t 4)

/-- R150: INV, at its encoding, completes for every element that is not zero, and where its gcd with the
modulus is 1 it writes `INVCORE` of the value; an empty source raises `EmptyRegister` (9), the zero
element `DivisionByZero` (4). The premise on the gcd is the one U2 asks for. -/
def Obligations.InvWritesInverse : Prop :=
  ∀ (s : State) (rd rs1 : Reg), s.Inv →
    (∀ w, decode w = .ok (.inv rd rs1) ↔ w = packFields 0x8 (regNumber rd) (regNumber rs1) 0 0 0) ∧
    (∀ b, s.reg rs1 = some b → b.value ≠ 0 →
      ∃ t v, exec (.inv rd rs1) s = .next t ∧
        Writes s t rd { value := BitVec.ofNat 32 v, width := b.width, poly := b.poly } ∧
        v < 2 ^ b.width.toNat ∧ Ends s t (rspNumber 0 b.width.toNat v) ∧
        (bgcd b.value.toNat (2 ^ b.width.toNat + b.poly.toNat) = 1 →
          v = invcore b.value.toNat b.width.toNat b.poly.toNat)) ∧
      (s.reg rs1 = none → ∃ t, exec (.inv rd rs1) s = .next t ∧ Raises s t 9) ∧
      (∀ b, s.reg rs1 = some b → b.value = 0 →
        ∃ t, exec (.inv rd rs1) s = .next t ∧ Raises s t 4)

/-- R155 (decision D17 of the spec, of which the source says nothing: U2; log 5): INV and DIV do not
test the gcd: with an element that has no inverse they answer OK with the value of the same rows of the
table. -/
def Obligations.NoInverseIsNoError : Prop :=
  ∀ (s : State) (rd rs1 rs2 : Reg) (a b : Element), s.Inv → s.reg rs1 = some a → s.reg rs2 = some b →
    a.width = b.width → a.poly = b.poly → b.value ≠ 0 →
    bgcd b.value.toNat (2 ^ b.width.toNat + b.poly.toNat) ≠ 1 →
    ∃ t u v, v = invcore b.value.toNat b.width.toNat b.poly.toNat ∧ v < 2 ^ b.width.toNat ∧
      exec (.inv rd rs2) s = .next t ∧ Ends s t (rspNumber 0 b.width.toNat v) ∧
      exec (.div rd rs1 rs2) s = .next u ∧
      Ends s u (rspNumber 0 b.width.toNat
        (mulcore a.value.toNat v a.width.toNat a.poly.toNat)) ∧
      mulcore b.value.toNat v b.width.toNat b.poly.toNat ≠ 1

/-- R165: GCD, at its encoding, writes `BGCD` of the values, a zero operand being legal; an empty source
raises `EmptyRegister` (9), unequal widths or polynomials `IncompatibleOperands` (3). -/
def Obligations.GcdWritesDivisor : Prop :=
  ∀ (s : State) (rd rs1 rs2 : Reg), s.Inv →
    (∀ w, decode w = .ok (.gcd rd rs1 rs2) ↔
      w = packFields 0x9 (regNumber rd) (regNumber rs1) (regNumber rs2) 0 0) ∧
    (∀ a b, s.reg rs1 = some a → s.reg rs2 = some b → a.width = b.width → a.poly = b.poly →
      ∃ t v, v = bgcd a.value.toNat b.value.toNat ∧ exec (.gcd rd rs1 rs2) s = .next t ∧
        Writes s t rd { value := BitVec.ofNat 32 v, width := a.width, poly := a.poly } ∧
        v < 2 ^ a.width.toNat ∧ Ends s t (rspNumber 0 a.width.toNat v)) ∧
      (s.reg rs1 = none ∨ s.reg rs2 = none →
        ∃ t, exec (.gcd rd rs1 rs2) s = .next t ∧ Raises s t 9) ∧
      (∀ a b, s.reg rs1 = some a → s.reg rs2 = some b → ¬ (a.width = b.width ∧ a.poly = b.poly) →
        ∃ t, exec (.gcd rd rs1 rs2) s = .next t ∧ Raises s t 3)

/-- R120: in the response of a command that writes an element, or of RDV, the bits from WIDTH-1 down to
0 are the bit-string form of the element: exactly width bits, character number k being bit width-1-k of
the value. -/
def Obligations.ResponseCarriesBitString : Prop :=
  ∀ (i : Instr) (s t : State) (r : RspWord) (rd : Reg) (e : Element), s.Inv →
    exec i s = .next t → t.response = some r → statusOf r = 0 →
    (destination i = some rd ∨ i = .rdv rd) → t.reg rd = some e →
    (responseBits r).length = e.width.toNat ∧
      ∀ k, k < e.width.toNat →
        (responseBits r)[k]? = some (e.value.toNat.testBit (e.width.toNat - 1 - k))

/-! ### The errors -/

/-- R186: `InvalidDegree` (1) is raised by CONFIG, and only by CONFIG, exactly when m is 0 or above
32. -/
def Obligations.InvalidDegreeExactly : Prop :=
  ∀ (i : Instr) (s t : State), exec i s = .next t →
    (t.response = some (rspNumber 1 0 0) ↔ ∃ m poly, i = .config m poly ∧ (m = 0 ∨ 32 < m))

/-- R187: `IndexOutOfRange` (2) is raised by ELEM, and only by ELEM, exactly when a field exists and the
index is 2^m or more. -/
def Obligations.IndexOutOfRangeExactly : Prop :=
  ∀ (i : Instr) (s t : State), exec i s = .next t →
    (t.response = some (rspNumber 2 0 0) ↔
      ∃ rd index f, i = .elem rd index ∧ s.field = some f ∧ 2 ^ f.m.toNat ≤ index)

/-- R188: `IncompatibleOperands` (3) is raised by the two-operand commands exactly when both sources are
non-empty and, for ADD and SUB, the widths differ; for MUL, DIV and GCD, the widths or the polynomials
differ. -/
def Obligations.IncompatibleOperandsExactly : Prop :=
  ∀ (i : Instr) (s t : State), exec i s = .next t →
    (t.response = some (rspNumber 3 0 0) ↔
      ∃ rd rs1 rs2 a b, s.reg rs1 = some a ∧ s.reg rs2 = some b ∧
        (((i = .add rd rs1 rs2 ∨ i = .sub rd rs1 rs2) ∧ a.width ≠ b.width) ∨
          ((i = .mul rd rs1 rs2 ∨ i = .div rd rs1 rs2 ∨ i = .gcd rd rs1 rs2) ∧
            (a.width ≠ b.width ∨ a.poly ≠ b.poly))))

/-- R189: `DivisionByZero` (4) is raised by DIV when the divisor is zero and by INV when the operand is
zero, after the checks that come before (R196). -/
def Obligations.DivisionByZeroExactly : Prop :=
  ∀ (i : Instr) (s t : State), exec i s = .next t →
    (t.response = some (rspNumber 4 0 0) ↔
      (∃ rd rs1 rs2 a b, i = .div rd rs1 rs2 ∧ s.reg rs1 = some a ∧ s.reg rs2 = some b ∧
          a.width = b.width ∧ a.poly = b.poly ∧ b.value = 0) ∨
        ∃ rd rs1 b, i = .inv rd rs1 ∧ s.reg rs1 = some b ∧ b.value = 0)

/-- R191, R192, R185: a response with STATUS 5, 6 or 10 to 15 cannot occur. -/
def Obligations.UnassignedCodesNeverAppear : Prop :=
  ∀ (w : CmdWord) (s t : State) (r : RspWord), runWord w s = .next t → t.response = some r →
    (statusOf r).toNat ≠ 5 ∧ (statusOf r).toNat ≠ 6 ∧ (statusOf r).toNat < 10

/-- R193: `IllegalCommand` (7) is raised exactly for the words no row of the table admits: opcode 0x0 or
0xC to 0xF, Z not zero, or a field the format does not use not zero; it depends on the word alone. -/
def Obligations.IllegalCommandExactly : Prop :=
  ∀ (w : CmdWord) (s t : State), runWord w s = .next t →
    (t.response = some (rspNumber 7 0 0) ↔ ∀ i : Instr, w &&& rowMask i ≠ rowMatch i)

/-- R194: `NoField` (8) is raised by COUNT and ELEM, exactly when `F = none`. -/
def Obligations.NoFieldExactly : Prop :=
  ∀ (i : Instr) (s t : State), exec i s = .next t →
    (t.response = some (rspNumber 8 0 0) ↔ readsField i = true ∧ s.field = none)

/-- R195: `EmptyRegister` (9) is raised exactly when a source register is empty; the destination is
never tested. -/
def Obligations.EmptyRegisterExactly : Prop :=
  ∀ (i : Instr) (s t : State), exec i s = .next t →
    (t.response = some (rspNumber 9 0 0) ↔ ∃ r, r ∈ sources i ∧ s.reg r = none)

/-! ### The arithmetic -/

/-- R95: `CTZ(a)` is the index of the least set bit, and `a >> CTZ(a)` is odd. -/
def Obligations.TrailingZerosExactly : Prop :=
  ∀ a : Nat, a ≠ 0 →
    a.testBit (ctz a) = true ∧ (∀ i, i < ctz a → a.testBit i = false) ∧ (a >>> ctz a) % 2 = 1

/-- R98 (marked by the spec "[from general knowledge, not in source]"): `CLMUL` is the product of the
two polynomials: the coefficient of x^n is the sum over GF(2) of the products of coefficients whose
indices add up to n. -/
def Obligations.ClmulIsPolynomialProduct : Prop :=
  ∀ a b n : Nat, (clmul a b).testBit n =
    decide (((List.range (n + 1)).filter fun i => a.testBit (n - i) && b.testBit i).length % 2 = 1)

/-- R142, which the spec marks as its own inference "[derived: from rule R141 ...]": `MULCORE` is the
product of the two polynomials reduced modulo `x^w + p`, for every p. -/
def Obligations.MulcoreIsReducedProduct : Prop :=
  ∀ a b w p : Nat, a < 2 ^ w → b < 2 ^ w → p < 2 ^ w →
    mulcore a b w p = (pdivmod (clmul a b) (2 ^ w + p)).2

/-- R143, which the spec marks as its own inference "[derived: from rule R142]": `MULCORE` is
commutative, associative and distributive over XOR, with 1 and 0 as they should be, for every p. -/
def Obligations.MulcoreRingLaws : Prop :=
  ∀ a b c w p : Nat, 1 ≤ w → a < 2 ^ w → b < 2 ^ w → c < 2 ^ w → p < 2 ^ w →
    mulcore a b w p = mulcore b a w p ∧
      mulcore (mulcore a b w p) c w p = mulcore a (mulcore b c w p) w p ∧
      mulcore a (b ^^^ c) w p = mulcore a b w p ^^^ mulcore a c w p ∧
      mulcore a 1 w p = a ∧ mulcore a 0 w p = 0

/-- R143, which the spec marks as its own inference "[derived: from rule R142]": where `x^w + p` is
irreducible (log 21), the product of two non-zero elements is non-zero. -/
def Obligations.NoZeroDivisorsInField : Prop :=
  ∀ a b w p : Nat, a < 2 ^ w → b < 2 ^ w → p < 2 ^ w → Irreducible w p → a ≠ 0 → b ≠ 0 →
    mulcore a b w p ≠ 0

/-- R171, which the spec marks as its own inference "[derived: from rule R170]": on every row of the
Bezout table, `u * s + v * t = r`. -/
def Obligations.BezoutRowsIdentity : Prop :=
  ∀ (u v : Nat) (row : BezoutRow), row ∈ xeuclid u v →
    clmul u row.s ^^^ clmul v row.t = row.r

/-- R172, which the spec marks as its own inference "[derived: from rule R170 and 40_bitpolynomial.md
rule R99]": the table of an element and its modulus has as row 2 the exchanged operand, has at most w +
3 rows, and ends with a zero remainder. -/
def Obligations.BezoutTableShape : Prop :=
  ∀ b w p : Nat, b ≠ 0 → b < 2 ^ w → p < 2 ^ w →
    (xeuclid b (2 ^ w + p))[2]? = some { index := 2, r := b, q := some 0, s := 1, t := 0 } ∧
      (xeuclid b (2 ^ w + p)).length ≤ w + 3 ∧
      ∃ last, (xeuclid b (2 ^ w + p)).getLast? = some last ∧ last.r = 0

/-- R155 (decision D17 of the spec; log 5) and R171, which the spec marks as its own inference
"[derived: from rule R170]": `b * INVCORE(b)` is the gcd of b and the modulus, for every non-zero b and
every p. -/
def Obligations.InvcoreTimesOperandIsGcd : Prop :=
  ∀ b w p : Nat, b ≠ 0 → b < 2 ^ w → p < 2 ^ w →
    mulcore b (invcore b w p) w p = bgcd b (2 ^ w + p)

/-- R154, which the spec marks as its own inference "[derived: from rules R150, R151, R152, 43_mul.md
rule R143, 45_gcd_bezout.md rule R171]": where `x^w + p` is irreducible (log 21), every non-zero element
has exactly one inverse, the one INVCORE gives; it is not zero, and its inverse is the element. -/
def Obligations.InverseLawInField : Prop :=
  ∀ b w p : Nat, b ≠ 0 → b < 2 ^ w → p < 2 ^ w → Irreducible w p →
    mulcore b (invcore b w p) w p = 1 ∧ invcore b w p ≠ 0 ∧
      invcore (invcore b w p) w p = b ∧
      ∀ x, x < 2 ^ w → mulcore b x w p = 1 → x = invcore b w p

/-- R154, which the spec marks as its own inference (as above): `(a * b) / b == a` in a field (log 21),
as two commands of the machine. -/
def Obligations.DivisionUndoesMultiplication : Prop :=
  ∀ (s : State) (rd rs1 rs2 : Reg) (a b : Element), s.Inv → s.reg rs1 = some a → s.reg rs2 = some b →
    a.width = b.width → a.poly = b.poly → Irreducible a.width.toNat a.poly.toNat → b.value ≠ 0 →
    rd ≠ rs2 →
    ∃ t u, exec (.mul rd rs1 rs2) s = .next t ∧ exec (.div rd rd rs2) t = .next u ∧
      u.reg rd = some a

/-- R167, which the spec marks as its own inference "[derived: from rule R166 ...]": `BGCD` divides both
polynomials, and every common divisor divides it. -/
def Obligations.BgcdIsGreatestDivisor : Prop :=
  ∀ u v : Nat, PolyDivides (bgcd u v) u ∧ PolyDivides (bgcd u v) v ∧
    ∀ d, PolyDivides d u → PolyDivides d v → PolyDivides d (bgcd u v)

/-- R167, which the spec marks as its own inference (as above): `BGCD(u, v) == BGCD(v, u)`. -/
def Obligations.BgcdSymmetric : Prop := ∀ u v : Nat, bgcd u v = bgcd v u

/-- R173, which the spec marks as its own inference "[derived: from rules R167, R171]": `BGCD(u, v)` is
the r of the second-to-last row of the Bezout table, for all u and v. -/
def Obligations.BgcdAgreesWithBezoutTable : Prop :=
  ∀ u v : Nat, bgcd u v = (secondToLast (xeuclid u v)).r
end

