-- ==== Sys2Proof/Laws/Asm.lean ====
section
/-! SUPPORT. Reading numbers (30_encoding.md R76): the character written for a decimal digit reads as that
digit, and a text of digits is read from the left. -/

namespace Sys2Proof.Machine

theorem digitIn_digitChar : ∀ d, d < 10 → digitIn 10 (Nat.digitChar d) = some d := by decide

/-- A value read is that of a digit of the base. -/
theorem digitIn_lt {base : Nat} {c : Char} {d : Nat} (h : digitIn base c = some d) : d < base := by
  have := (List.findIdx?_eq_some_iff_getElem.mp h).1
  exact Nat.lt_of_lt_of_le this (List.length_take_le _ _)

theorem readDigits_append (base : Nat) (cs ds : List Char) (n : Nat) :
    readDigits base (cs ++ ds) n = (readDigits base cs n).bind (readDigits base ds) := by
  induction cs generalizing n with
  | nil => rfl
  | cons c cs ih =>
    simp only [List.cons_append, readDigits]
    cases digitIn base c with
    | none => rfl
    | some d => exact ih _

end Sys2Proof.Machine
end

