-- ==== Sys2Proof/Laws/Poly.lean ====
section
/-! SUPPORT. The algebra of the BitPolynomial primitives (40_bitpolynomial.md R91, R94, R98, R99): degrees
under XOR and shifts, `CLMUL` as the product of GF(2)[x], and `PDIVMOD` as its division. Sizes are
written `a < 2 ^ n`, "a has at most n bits". -/

namespace Sys2Proof.Machine

/-! ### Degrees -/

theorem lt_two_pow_deg_succ (a : Nat) : a < 2 ^ (deg a + 1) := Nat.lt_log2_self

theorem two_pow_deg_le {a : Nat} (h : a ≠ 0) : 2 ^ deg a ≤ a := Nat.log2_self_le h

/-- The degree is n exactly when the value lies in the n-th octave. -/
theorem deg_eq_of_bounds {a n : Nat} (lo : 2 ^ n ≤ a) (hi : a < 2 ^ (n + 1)) : deg a = n := by
  have ha : a ≠ 0 := by have := Nat.two_pow_pos n; omega
  exact (Nat.log2_eq_iff ha).2 ⟨lo, hi⟩

theorem deg_lt_of_lt {a n : Nat} (ha : a ≠ 0) (h : a < 2 ^ n) : deg a < n :=
  (Nat.log2_lt ha).2 h

theorem lt_of_deg_lt {a n : Nat} (h : a = 0 ∨ deg a < n) : a < 2 ^ n := by
  rcases h with rfl | h
  · exact Nat.two_pow_pos n
  · exact lt_of_lt_of_le (lt_two_pow_deg_succ a) (Nat.pow_le_pow_right (by decide) h)

theorem deg_shiftLeft {a : Nat} (ha : a ≠ 0) (k : Nat) : deg (a <<< k) = deg a + k := by
  apply deg_eq_of_bounds
  · rw [Nat.shiftLeft_eq, pow_add]
    exact Nat.mul_le_mul_right _ (two_pow_deg_le ha)
  · rw [Nat.shiftLeft_eq, Nat.add_right_comm, pow_add _ _ k]
    exact Nat.mul_lt_mul_of_pos_right (lt_two_pow_deg_succ a) (Nat.two_pow_pos k)

theorem shiftLeft_ne_zero {a : Nat} (ha : a ≠ 0) (k : Nat) : a <<< k ≠ 0 := by
  rw [Nat.shiftLeft_eq]
  exact Nat.mul_ne_zero ha (Nat.two_pow_pos k).ne'

theorem testBit_deg {a : Nat} (ha : a ≠ 0) : a.testBit (deg a) = true := by
  have h1 := two_pow_deg_le ha
  have h2 := lt_two_pow_deg_succ a
  rw [Nat.testBit_eq_decide_div_mod_eq]
  have : a / 2 ^ deg a = 1 := by
    apply Nat.div_eq_of_lt_le <;> simp [pow_succ] at * <;> omega
  simp [this]

theorem testBit_of_lt {a n i : Nat} (h : a < 2 ^ n) (hi : n ≤ i) : a.testBit i = false :=
  Nat.testBit_lt_two_pow (lt_of_lt_of_le h (Nat.pow_le_pow_right (by decide) hi))

/-- A value with bit n set is at least `2 ^ n`. -/
theorem le_of_testBit {a n : Nat} (h : a.testBit n = true) : 2 ^ n ≤ a := Nat.ge_two_pow_of_testBit h

/-- "XOR never increases degree", and the higher operand keeps its top bit (R91). -/
theorem deg_xor_of_lt {a b : Nat} (ha : a ≠ 0) (hb : b < 2 ^ deg a) :
    a ^^^ b ≠ 0 ∧ deg (a ^^^ b) = deg a := by
  have bit : (a ^^^ b).testBit (deg a) = true := by
    rw [Nat.testBit_xor, testBit_deg ha, testBit_of_lt hb le_rfl]; rfl
  have lo := le_of_testBit bit
  have hi : a ^^^ b < 2 ^ (deg a + 1) :=
    Nat.xor_lt_two_pow (lt_two_pow_deg_succ a)
      (lt_of_lt_of_le hb (Nat.pow_le_pow_right (by decide) (Nat.le_succ _)))
  exact ⟨by have := Nat.two_pow_pos (deg a); omega, deg_eq_of_bounds lo hi⟩

/-- Two values of one degree: their XOR has a lower one (R99: "each pass clears the top bit"). -/
theorem xor_lt_of_deg_eq {a b : Nat} (ha : a ≠ 0) (hb : b ≠ 0) (h : deg a = deg b) :
    a ^^^ b < 2 ^ deg a := by
  by_contra hlt
  have hi : a ^^^ b < 2 ^ (deg a + 1) :=
    Nat.xor_lt_two_pow (lt_two_pow_deg_succ a) (h ▸ lt_two_pow_deg_succ b)
  have hd := deg_eq_of_bounds (not_lt.1 hlt) hi
  have hz : a ^^^ b ≠ 0 := by have := Nat.two_pow_pos (deg a); omega
  have bit := testBit_deg hz
  rw [hd, Nat.testBit_xor, testBit_deg ha, h, testBit_deg hb] at bit
  exact absurd bit (by decide)

/-! ### CLMUL (R98) -/

/-- The partial product has at most `deg a + n` bits. -/
theorem clmulBelow_lt {a m : Nat} (ha : a < 2 ^ m) (b n : Nat) : clmulBelow a b n < 2 ^ (m + n) := by
  induction n with
  | zero => exact Nat.two_pow_pos _
  | succ n ih =>
    rw [clmulBelow]
    refine Nat.xor_lt_two_pow (lt_of_lt_of_le ih (Nat.pow_le_pow_right (by decide) (by omega))) ?_
    split
    · rw [Nat.shiftLeft_eq, ← Nat.add_assoc, pow_succ, pow_add]
      calc a * 2 ^ n < 2 ^ m * 2 ^ n := Nat.mul_lt_mul_of_pos_right ha (Nat.two_pow_pos n)
        _ ≤ 2 ^ m * 2 ^ n * 2 := Nat.le_mul_of_pos_right _ (by decide)
    · exact Nat.two_pow_pos _

/-- Bits of b that are zero contribute nothing. -/
theorem clmulBelow_extend {b n : Nat} (h : b < 2 ^ n) (a k : Nat) :
    clmulBelow a b (n + k) = clmulBelow a b n := by
  induction k with
  | zero => rfl
  | succ k ih => rw [← Nat.add_assoc, clmulBelow, testBit_of_lt h (Nat.le_add_right n k), ih]; simp

/-- Any bound on the bits of b gives the product. -/
theorem clmul_eq_below {b n : Nat} (h : b < 2 ^ n) (a : Nat) : clmul a b = clmulBelow a b n := by
  rcases Nat.le_total n (deg b + 1) with hn | hn
  · obtain ⟨k, hk⟩ := Nat.exists_eq_add_of_le hn
    rw [clmul, hk, clmulBelow_extend h]
  · obtain ⟨k, hk⟩ := Nat.exists_eq_add_of_le hn
    rw [clmul, hk, clmulBelow_extend (lt_two_pow_deg_succ b)]

theorem clmulBelow_xor_right (a b c n : Nat) :
    clmulBelow a (b ^^^ c) n = clmulBelow a b n ^^^ clmulBelow a c n := by
  induction n with
  | zero => simp [clmulBelow]
  | succ n ih =>
    simp only [clmulBelow, ih, Nat.testBit_xor]
    cases b.testBit n <;> cases c.testBit n <;>
      simp [Nat.xor_assoc, Nat.xor_comm, Nat.xor_left_comm]

theorem clmulBelow_xor_left (a b c n : Nat) :
    clmulBelow (a ^^^ b) c n = clmulBelow a c n ^^^ clmulBelow b c n := by
  induction n with
  | zero => simp [clmulBelow]
  | succ n ih =>
    simp only [clmulBelow, ih]
    cases c.testBit n <;>
      simp [Nat.shiftLeft_xor_distrib, Nat.xor_assoc, Nat.xor_left_comm]

theorem lt_common (b c : Nat) : ∃ n, b < 2 ^ n ∧ c < 2 ^ n :=
  ⟨b + c, lt_of_le_of_lt (Nat.le_add_right b c) Nat.lt_two_pow_self,
    lt_of_le_of_lt (Nat.le_add_left c b) Nat.lt_two_pow_self⟩

/-- CLMUL distributes over XOR on the right. -/
theorem clmul_xor_right (a b c : Nat) : clmul a (b ^^^ c) = clmul a b ^^^ clmul a c := by
  obtain ⟨n, hb, hc⟩ := lt_common b c
  rw [clmul_eq_below hb, clmul_eq_below hc, clmul_eq_below (Nat.xor_lt_two_pow hb hc),
    clmulBelow_xor_right]

/-- CLMUL distributes over XOR on the left. -/
theorem clmul_xor_left (a b c : Nat) : clmul (a ^^^ b) c = clmul a c ^^^ clmul b c := by
  simp only [clmul, clmulBelow_xor_left]

@[simp] theorem clmul_zero_right (a : Nat) : clmul a 0 = 0 := by
  rw [clmul_eq_below (n := 0) (by decide)]; rfl

@[simp] theorem clmul_zero_left (b : Nat) : clmul 0 b = 0 := by
  have h := clmul_xor_left 0 0 b
  simpa using h

@[simp] theorem clmul_one_right (a : Nat) : clmul a 1 = a := by
  rw [clmul_eq_below (n := 1) (by decide)]; simp [clmulBelow]

theorem clmulBelow_shiftLeft_left (a b k n : Nat) :
    clmulBelow (a <<< k) b n = clmulBelow a b n <<< k := by
  induction n with
  | zero => simp [clmulBelow]
  | succ n ih =>
    simp only [clmulBelow, ih, Nat.shiftLeft_xor_distrib]
    cases b.testBit n <;> simp [← Nat.shiftLeft_add, Nat.add_comm]

/-- Multiplying the first operand by a power of x. -/
theorem clmul_shiftLeft_left (a b k : Nat) : clmul (a <<< k) b = clmul a b <<< k :=
  clmulBelow_shiftLeft_left a b k _

theorem clmulBelow_double_right (a b n : Nat) :
    clmulBelow a (b <<< 1) (n + 1) = clmulBelow a b n <<< 1 := by
  induction n with
  | zero => simp [clmulBelow]
  | succ n ih =>
    rw [clmulBelow, ih, clmulBelow, Nat.shiftLeft_xor_distrib]
    have bit : (b <<< 1).testBit (n + 1) = b.testBit n := by simp [Nat.testBit_shiftLeft]
    rw [bit]
    cases b.testBit n <;> simp [← Nat.shiftLeft_add]

theorem clmul_double_right (a b : Nat) : clmul a (b <<< 1) = clmul a b <<< 1 := by
  have hb := lt_two_pow_deg_succ b
  have hs : b <<< 1 < 2 ^ (deg b + 1 + 1) := by rw [Nat.shiftLeft_eq, pow_succ]; omega
  rw [clmul_eq_below hb, clmul_eq_below hs, clmulBelow_double_right]

/-- Multiplying the second operand by a power of x. -/
theorem clmul_shiftLeft_right (a b k : Nat) : clmul a (b <<< k) = clmul a b <<< k := by
  induction k with
  | zero => rfl
  | succ k ih => rw [Nat.shiftLeft_add, clmul_double_right, ih, ← Nat.shiftLeft_add]

/-- A number from its upper bits and its lowest bit. -/
theorem eq_shiftLeft_xor_bit (a : Nat) : a = ((a / 2) <<< 1) ^^^ (a % 2) := by
  apply Nat.eq_of_testBit_eq
  intro i
  rw [Nat.testBit_xor, Nat.testBit_shiftLeft]
  cases i with
  | zero => rcases Nat.mod_two_eq_zero_or_one a with h | h <;> simp [h]
  | succ i => rcases Nat.mod_two_eq_zero_or_one a with h | h <;> simp [Nat.testBit_succ, h]

@[simp] theorem clmul_one_left (b : Nat) : clmul 1 b = b := by
  induction b using Nat.strong_induction_on with
  | _ b ih =>
    rcases Nat.eq_zero_or_pos b with rfl | hb
    · simp
    · conv_lhs => rw [eq_shiftLeft_xor_bit b]
      rw [clmul_xor_right, clmul_double_right, ih (b / 2) (Nat.div_lt_self hb (by decide))]
      conv_rhs => rw [eq_shiftLeft_xor_bit b]
      congr 1
      rcases Nat.mod_two_eq_zero_or_one b with h | h <;> simp [h]

/-- CLMUL is commutative. -/
theorem clmul_comm (a b : Nat) : clmul a b = clmul b a := by
  induction a using Nat.strong_induction_on with
  | _ a ih =>
    rcases Nat.eq_zero_or_pos a with rfl | ha
    · simp
    · rw [eq_shiftLeft_xor_bit a, clmul_xor_left, clmul_xor_right, clmul_shiftLeft_left,
        clmul_shiftLeft_right, ih (a / 2) (Nat.div_lt_self ha (by decide))]
      congr 1
      rcases Nat.mod_two_eq_zero_or_one a with h | h <;> simp [h]

/-- CLMUL is associative. -/
theorem clmul_assoc (a b c : Nat) : clmul (clmul a b) c = clmul a (clmul b c) := by
  induction c using Nat.strong_induction_on with
  | _ c ih =>
    rcases Nat.eq_zero_or_pos c with rfl | hc
    · simp
    · rw [eq_shiftLeft_xor_bit c, clmul_xor_right, clmul_xor_right, clmul_xor_right,
        clmul_shiftLeft_right, clmul_shiftLeft_right, clmul_shiftLeft_right,
        ih (c / 2) (Nat.div_lt_self hc (by decide))]
      congr 1
      rcases Nat.mod_two_eq_zero_or_one c with h | h <;> simp [h]

/-- The product of non-zero polynomials is non-zero and its degree is the sum of theirs. -/
theorem deg_clmul {a b : Nat} (ha : a ≠ 0) (hb : b ≠ 0) :
    clmul a b ≠ 0 ∧ deg (clmul a b) = deg a + deg b := by
  have top : clmul a b = (a <<< deg b) ^^^ clmulBelow a b (deg b) := by
    rw [clmul, clmulBelow, testBit_deg hb, Nat.xor_comm]; rfl
  have low : clmulBelow a b (deg b) < 2 ^ deg (a <<< deg b) := by
    rw [deg_shiftLeft ha]
    cases hd : deg b with
    | zero => exact Nat.two_pow_pos _
    | succ n =>
      have := clmulBelow_lt (lt_two_pow_deg_succ a) b (n + 1)
      rw [clmulBelow]
      refine Nat.xor_lt_two_pow ?_ ?_
      · have h := clmulBelow_lt (lt_two_pow_deg_succ a) b n
        rwa [Nat.add_assoc, Nat.add_comm 1 n] at h
      · split
        · exact lt_of_lt_of_le (lt_two_pow_deg_succ _)
            (Nat.pow_le_pow_right (by decide) (by rw [deg_shiftLeft ha]; omega))
        · exact Nat.two_pow_pos _
  have h := deg_xor_of_lt (shiftLeft_ne_zero ha (deg b)) low
  rw [top]
  exact ⟨h.1, by rw [h.2, deg_shiftLeft ha]⟩

theorem clmul_eq_zero {a b : Nat} : clmul a b = 0 ↔ a = 0 ∨ b = 0 := by
  constructor
  · intro h
    by_contra hn
    rw [not_or] at hn
    exact (deg_clmul hn.1 hn.2).1 h
  · rintro (rfl | rfl) <;> simp

/-! ### PDIVMOD (R99) -/

/-- The loop keeps `clmul q b ^^^ r`. -/
theorem pdivmodLoop_identity (b fuel q r : Nat) :
    clmul (pdivmodLoop b fuel q r).1 b ^^^ (pdivmodLoop b fuel q r).2 = clmul q b ^^^ r := by
  induction fuel generalizing q r with
  | zero => rfl
  | succ n ih =>
    rw [pdivmodLoop]
    split
    · rw [ih, clmul_xor_left, clmul_shiftLeft_left, clmul_one_left]
      simp [Nat.xor_left_comm, Nat.xor_comm]
    · rfl

/-- The loop ends with a remainder of lower degree than b. -/
theorem pdivmodLoop_lt {b : Nat} (hb : b ≠ 0) {fuel r : Nat} (hr : r < 2 ^ fuel) (q : Nat) :
    (pdivmodLoop b fuel q r).2 < 2 ^ deg b := by
  induction fuel generalizing q r with
  | zero => exact lt_of_lt_of_le hr (Nat.pow_le_pow_right (by decide) (Nat.zero_le _))
  | succ n ih =>
    rw [pdivmodLoop]
    split
    · rename_i h
      apply ih
      have hs := shiftLeft_ne_zero hb (deg r - deg b)
      have hd : deg r = deg (b <<< (deg r - deg b)) := by rw [deg_shiftLeft hb]; omega
      exact lt_of_lt_of_le (xor_lt_of_deg_eq h.1 hs hd)
        (Nat.pow_le_pow_right (by decide) (Nat.lt_succ_iff.1 (deg_lt_of_lt h.1 hr)))
    · rename_i h
      apply lt_of_deg_lt
      by_cases h0 : r = 0
      · exact .inl h0
      · exact .inr (by by_contra hd; exact h ⟨h0, not_lt.1 hd⟩)

/-- What PDIVMOD gives (R99): `a = CLMUL(q, b) XOR r`, with r of lower degree than b. -/
theorem pdivmod_spec (a : Nat) {b : Nat} (hb : b ≠ 0) :
    a = clmul (pdivmod a b).1 b ^^^ (pdivmod a b).2 ∧ (pdivmod a b).2 < 2 ^ deg b := by
  rw [pdivmod, if_neg hb]
  refine ⟨?_, pdivmodLoop_lt hb (lt_two_pow_deg_succ a) 0⟩
  rw [pdivmodLoop_identity]; simp

/-- "The pair is unique" (R99). -/
theorem pdivmod_unique {a b q r : Nat} (hb : b ≠ 0) (h : a = clmul q b ^^^ r) (hr : r < 2 ^ deg b) :
    pdivmod a b = (q, r) := by
  obtain ⟨h', hr'⟩ := pdivmod_spec a hb
  have e : clmul (q ^^^ (pdivmod a b).1) b = r ^^^ (pdivmod a b).2 := by
    rw [clmul_xor_left]
    have : clmul q b ^^^ r = clmul (pdivmod a b).1 b ^^^ (pdivmod a b).2 := h.symm.trans h'
    have := congrArg (fun x => x ^^^ r ^^^ clmul (pdivmod a b).1 b) this
    simpa [Nat.xor_assoc, Nat.xor_comm, Nat.xor_left_comm] using this
  have lt : r ^^^ (pdivmod a b).2 < 2 ^ deg b := Nat.xor_lt_two_pow hr hr'
  have hq : q ^^^ (pdivmod a b).1 = 0 := by
    by_contra hne
    obtain ⟨hz, hd⟩ := deg_clmul hne hb
    have := two_pow_deg_le hz
    rw [hd, e, pow_add] at this
    have := Nat.le_mul_of_pos_left (2 ^ deg b) (Nat.two_pow_pos (deg (q ^^^ (pdivmod a b).1)))
    omega
  have hq' := Nat.xor_eq_zero_iff.1 hq
  rw [hq, clmul_zero_left] at e
  have hr'' := Nat.xor_eq_zero_iff.1 e.symm
  rw [hq', hr'']

end Sys2Proof.Machine
end

