-- ==== Sys2Proof/Laws/Bezout.lean ====
section
/-! SUPPORT. Bounds on what the inverse solver returns: the gcd fits the width of its operands
(10_state.md R30), and the s of the second-to-last row is below 2^w (45_gcd_bezout.md R174). -/

namespace Sys2Proof.Machine

/-! ### BGCD -/

theorem shiftRight_shiftLeft_le (a k : Nat) : (a >>> k) <<< k ≤ a := by
  rw [Nat.shiftRight_eq_div_pow, Nat.shiftLeft_eq]
  exact Nat.div_mul_le_self a (2 ^ k)

theorem shiftLeft_mono {a b : Nat} (h : a ≤ b) (k : Nat) : a <<< k ≤ b <<< k := by
  rw [Nat.shiftLeft_eq, Nat.shiftLeft_eq]
  exact Nat.mul_le_mul_right _ h

theorem shiftRight_le_self (a k : Nat) : a >>> k ≤ a := by
  rw [Nat.shiftRight_eq_div_pow]
  exact Nat.div_le_self a (2 ^ k)

/-- Stripping more than k zeros and putting k back stays below the operand. -/
theorem strip_shiftLeft_le {a c k : Nat} (h : k ≤ c) : (a >>> c) <<< k ≤ a := by
  refine le_trans (shiftLeft_mono ?_ k) (shiftRight_shiftLeft_le a k)
  obtain ⟨d, rfl⟩ := Nat.exists_eq_add_of_le h
  rw [Nat.shiftRight_add]
  exact shiftRight_le_self _ _

/-- The loop of BGCD stays inside the width of its operands shifted back. -/
theorem bgcdLoop_lt {w k : Nat} (fuel : Nat) {u v : Nat} (hu : u <<< k < 2 ^ w)
    (hv : v <<< k < 2 ^ w) : bgcdLoop k fuel u v < 2 ^ w := by
  induction fuel generalizing u v with
  | zero => exact hu
  | succ n ih =>
    have hlo : (if u > v then v else u) <<< k < 2 ^ w := by split <;> assumption
    have hhi : (if u > v then u else v) <<< k < 2 ^ w := by split <;> assumption
    have hx := Nat.xor_lt_two_pow hhi hlo
    rw [← Nat.shiftLeft_xor_distrib] at hx
    simp only [bgcdLoop]
    by_cases hz : (if u > v then u else v) ^^^ (if u > v then v else u) = 0
    · rw [if_pos hz]; exact hlo
    · rw [if_neg hz]
      exact ih hlo (lt_of_le_of_lt (shiftLeft_mono (shiftRight_le_self _ _) k) hx)

/-- The gcd of two w-bit values has w bits (R30, R165). -/
theorem bgcd_lt {u v w : Nat} (hu : u < 2 ^ w) (hv : v < 2 ^ w) : bgcd u v < 2 ^ w := by
  unfold bgcd
  split
  · exact hv
  · split
    · exact hu
    · exact bgcdLoop_lt _ (lt_of_le_of_lt (strip_shiftLeft_le (Nat.min_le_left _ _)) hu)
        (lt_of_le_of_lt (strip_shiftLeft_le (Nat.min_le_right _ _)) hv)

/-! ### The Bezout table -/

/-- Two neighbouring rows from row 2 on, in a table whose modulus has degree w (R174): the degrees of s
and of the remainder before it add up to w, s grows and the remainder falls. -/
structure RowsBounded (w : Nat) (prev cur : BezoutRow) : Prop where
  prev_r : prev.r ≠ 0
  cur_r : cur.r < 2 ^ deg prev.r
  cur_s : cur.s ≠ 0
  degs : deg cur.s + deg prev.r = w
  prev_s : prev.s < 2 ^ deg cur.s

/-- The quotient of a row by a lower one is not zero, and its degree is the difference (R174). -/
theorem deg_quotient {a b : Nat} (ha : a ≠ 0) (hb : b ≠ 0) (h : b < 2 ^ deg a) :
    (pdivmod a b).1 ≠ 0 ∧ deg (pdivmod a b).1 + deg b = deg a := by
  obtain ⟨e, hr⟩ := pdivmod_spec a hb
  have hba : deg b < deg a := deg_lt_of_lt hb h
  have hq : (pdivmod a b).1 ≠ 0 := by
    intro h0
    rw [h0, clmul_zero_left, Nat.zero_xor] at e
    rw [← e] at hr
    exact absurd (deg_lt_of_lt ha hr) (by omega)
  obtain ⟨hz, hd⟩ := deg_clmul hq hb
  have low : (pdivmod a b).2 < 2 ^ deg (clmul (pdivmod a b).1 b) :=
    lt_of_lt_of_le hr (Nat.pow_le_pow_right (by decide) (by omega))
  have := (deg_xor_of_lt hz low).2
  rw [← e] at this
  exact ⟨hq, by omega⟩

/-- The next row keeps the bounds (R174). -/
theorem nextRow_bounded {w : Nat} {prev cur : BezoutRow} (h : RowsBounded w prev cur)
    (hc : cur.r ≠ 0) : RowsBounded w cur (nextRow prev cur) := by
  obtain ⟨hq, hdq⟩ := deg_quotient h.prev_r hc h.cur_r
  obtain ⟨hz, hdz⟩ := deg_clmul hq h.cur_s
  have hlt := deg_lt_of_lt hc h.cur_r
  have low : prev.s < 2 ^ deg (clmul (pdivmod prev.r cur.r).1 cur.s) :=
    lt_of_lt_of_le h.prev_s (Nat.pow_le_pow_right (by decide) (by omega))
  obtain ⟨hs, hds⟩ := deg_xor_of_lt hz low
  rw [Nat.xor_comm] at hs hds
  have e := h.degs
  exact
    { prev_r := hc
      cur_r := (pdivmod_spec prev.r hc).2
      cur_s := hs
      degs := by show deg (prev.s ^^^ clmul (pdivmod prev.r cur.r).1 cur.s) + deg cur.r = w; omega
      prev_s := by
        show cur.s < 2 ^ deg (prev.s ^^^ clmul (pdivmod prev.r cur.r).1 cur.s)
        exact lt_of_deg_lt (.inr (by omega)) }

/-- `secondToLast` passes over the first of three rows. -/
theorem secondToLast_cons (a : BezoutRow) {l : List BezoutRow} (h : 2 ≤ l.length) :
    secondToLast (a :: l) = secondToLast l := by
  match l, h with
  | _ :: _ :: _, _ => rfl

theorem two_le_length_xeuclidLoop (fuel : Nat) (prev cur : BezoutRow) :
    2 ≤ (xeuclidLoop fuel prev cur).length := by
  induction fuel generalizing prev cur with
  | zero => exact le_rfl
  | succ n ih =>
    rw [xeuclidLoop]
    split
    · exact le_rfl
    · exact le_trans (ih cur (nextRow prev cur)) (by simp)

/-- From bounded rows on, the second-to-last s is below 2^w (R174). -/
theorem secondToLast_s_lt {w : Nat} (fuel : Nat) {prev cur : BezoutRow}
    (h : RowsBounded w prev cur) : (secondToLast (xeuclidLoop fuel prev cur)).s < 2 ^ w := by
  have base : prev.s < 2 ^ w :=
    lt_of_lt_of_le h.prev_s (Nat.pow_le_pow_right (by decide) (by have := h.degs; omega))
  induction fuel generalizing prev cur with
  | zero => exact base
  | succ n ih =>
    rw [xeuclidLoop]
    split
    · exact base
    · rename_i hc
      rw [secondToLast_cons _ (two_le_length_xeuclidLoop n _ _)]
      have h' := nextRow_bounded h hc
      exact ih h' (lt_of_lt_of_le h'.prev_s
        (Nat.pow_le_pow_right (by decide) (by have := h'.degs; omega)))

theorem effectiveModulus_ne_zero (w p : Nat) : effectiveModulus w p ≠ 0 := by
  have := Nat.two_pow_pos w
  unfold effectiveModulus; omega

/-- The effective modulus has degree w (10_state.md R21). -/
theorem deg_effectiveModulus {w p : Nat} (hp : p < 2 ^ w) : deg (effectiveModulus w p) = w :=
  deg_eq_of_bounds (by unfold effectiveModulus; omega) (by unfold effectiveModulus; rw [pow_succ]; omega)

/-- Row 2 is `(b, q = 0, s = 1, t = 0)`: the first step only exchanges the operands (R172). -/
theorem pdivmod_of_lt {a b : Nat} (hb : b ≠ 0) (h : a < 2 ^ deg b) : pdivmod a b = (0, a) :=
  pdivmod_unique hb (by simp) h

/-- INVCORE returns a w-bit value: it "never needs a final reduction modulo P" (R174). -/
theorem invcore_lt {b w p : Nat} (hb : b < 2 ^ w) (hp : p < 2 ^ w) : invcore b w p < 2 ^ w := by
  have hP := effectiveModulus_ne_zero w p
  have hd := deg_effectiveModulus hp
  unfold invcore xeuclid
  rw [xeuclidLoop, if_neg hP, secondToLast_cons _ (two_le_length_xeuclidLoop _ _ _)]
  apply secondToLast_s_lt
  have e : pdivmod b (effectiveModulus w p) = (0, b) := pdivmod_of_lt hP (by rw [hd]; exact hb)
  refine ⟨hP, ?_, ?_, ?_, ?_⟩ <;> simp [nextRow, e, hd, hb]
  decide

end Sys2Proof.Machine
end

