-- ==== Sys2Proof/Laws/Decode.lean ====
section
/-! SUPPORT. The fields of a command word as numbers (30_encoding.md R61), and the fields of a packed
word. -/

namespace Sys2Proof

theorem fieldOPC_eq (w : CmdWord) : fieldOPC w = w.toNat / 2 ^ 60 % 2 ^ 4 := by
  rw [fieldOPC, BitVec.extractLsb'_toNat, Nat.shiftRight_eq_div_pow]

theorem fieldRD_eq (w : CmdWord) : fieldRD w = w.toNat / 2 ^ 58 % 2 ^ 2 := by
  rw [fieldRD, BitVec.extractLsb'_toNat, Nat.shiftRight_eq_div_pow]

theorem fieldRS1_eq (w : CmdWord) : fieldRS1 w = w.toNat / 2 ^ 56 % 2 ^ 2 := by
  rw [fieldRS1, BitVec.extractLsb'_toNat, Nat.shiftRight_eq_div_pow]

theorem fieldRS2_eq (w : CmdWord) : fieldRS2 w = w.toNat / 2 ^ 54 % 2 ^ 2 := by
  rw [fieldRS2, BitVec.extractLsb'_toNat, Nat.shiftRight_eq_div_pow]

theorem fieldM_eq (w : CmdWord) : fieldM w = w.toNat / 2 ^ 48 % 2 ^ 6 := by
  rw [fieldM, BitVec.extractLsb'_toNat, Nat.shiftRight_eq_div_pow]

theorem fieldZ_eq (w : CmdWord) : fieldZ w = w.toNat / 2 ^ 33 % 2 ^ 15 := by
  rw [fieldZ, BitVec.extractLsb'_toNat, Nat.shiftRight_eq_div_pow]

theorem fieldIMM_eq (w : CmdWord) : fieldIMM w = w.toNat % 2 ^ 33 := by
  rw [fieldIMM, BitVec.extractLsb'_toNat, Nat.shiftRight_eq_div_pow, pow_zero, Nat.div_one]

/-- A word is the sum of its fields, each at its place (R61). -/
theorem word_of_fields (w : CmdWord) :
    w.toNat = fieldOPC w * 2 ^ 60 + fieldRD w * 2 ^ 58 + fieldRS1 w * 2 ^ 56 + fieldRS2 w * 2 ^ 54 +
      fieldM w * 2 ^ 48 + fieldZ w * 2 ^ 33 + fieldIMM w := by
  rw [fieldOPC_eq, fieldRD_eq, fieldRS1_eq, fieldRS2_eq, fieldM_eq, fieldZ_eq, fieldIMM_eq]
  have := w.isLt
  omega

/-- The fields of a packed word are those packed, and Z is zero. -/
theorem fields_packFields {opc rd rs1 rs2 m imm : Nat} (ho : opc < 16) (hd : rd < 4) (h1 : rs1 < 4)
    (h2 : rs2 < 4) (hm : m < 64) (hi : imm < 2 ^ 33) :
    fieldOPC (packFields opc rd rs1 rs2 m imm) = opc ∧ fieldRD (packFields opc rd rs1 rs2 m imm) = rd ∧
      fieldRS1 (packFields opc rd rs1 rs2 m imm) = rs1 ∧
      fieldRS2 (packFields opc rd rs1 rs2 m imm) = rs2 ∧
      fieldM (packFields opc rd rs1 rs2 m imm) = m ∧ fieldZ (packFields opc rd rs1 rs2 m imm) = 0 ∧
      fieldIMM (packFields opc rd rs1 rs2 m imm) = imm := by
  have e : (packFields opc rd rs1 rs2 m imm).toNat =
      opc * 2 ^ 60 + rd * 2 ^ 58 + rs1 * 2 ^ 56 + rs2 * 2 ^ 54 + m * 2 ^ 48 + imm := by
    rw [packFields, BitVec.toNat_ofNat, Nat.mod_eq_of_lt (by omega)]
  rw [fieldOPC_eq, fieldRD_eq, fieldRS1_eq, fieldRS2_eq, fieldM_eq, fieldZ_eq, fieldIMM_eq, e]
  refine ⟨?_, ?_, ?_, ?_, ?_, ?_, ?_⟩ <;> omega

theorem regNumber_lt (r : Reg) : regNumber r < 4 := by cases r <;> decide

@[simp] theorem regOfNumber_regNumber (r : Reg) : regOfNumber (regNumber r) = r := by cases r <;> rfl

theorem regNumber_regOfNumber {n : Nat} (h : n < 4) : regNumber (regOfNumber n) = n := by
  match n, h with
  | 0, _ => rfl
  | 1, _ => rfl
  | 2, _ => rfl
  | 3, _ => rfl

theorem legalIf_ok {b : Bool} {i j : Instr} : legalIf b i = .ok j ↔ b = true ∧ i = j := by
  cases b <;> simp [legalIf]

theorem legalIf_error {b : Bool} {i : Instr} {k : ErrorKind} :
    legalIf b i = .error k ↔ b = false ∧ k = .illegalCommand := by
  cases b <;> simp [legalIf, eq_comm]

end Sys2Proof
end

