-- ==== Sys2Proof/Laws/MulCore.lean ====
section
/-! SUPPORT. `MULCORE` stays inside its width (43_mul.md R142: "the result is below 2^w"). -/

namespace Sys2Proof.Machine

theorem doubleFold_lt {w p : Nat} (hp : p < 2 ^ w) (d : Nat) : doubleFold w p d < 2 ^ w := by
  have h : (d <<< 1) % 2 ^ w < 2 ^ w := Nat.mod_lt _ (Nat.two_pow_pos w)
  unfold doubleFold
  split
  · exact Nat.xor_lt_two_pow h hp
  · exact h

theorem mulcoreLoop_lt {w p : Nat} (hp : p < 2 ^ w) (a n i : Nat) {acc d : Nat}
    (hacc : acc < 2 ^ w) (hd : d < 2 ^ w) : mulcoreLoop a w p n i acc d < 2 ^ w := by
  induction n generalizing i acc d with
  | zero => exact hacc
  | succ n ih =>
    refine ih (i + 1) ?_ (doubleFold_lt hp d)
    split
    · exact Nat.xor_lt_two_pow hacc hd
    · exact hacc

/-- The product fits the width, for every p (R142). -/
theorem mulcore_lt {b w p : Nat} (a : Nat) (hb : b < 2 ^ w) (hp : p < 2 ^ w) :
    mulcore a b w p < 2 ^ w :=
  mulcoreLoop_lt hp a w 0 (Nat.two_pow_pos w) hb

end Sys2Proof.Machine
end

