-- ==== Sys2Proof/Laws/State.lean ====
section
/-! SUPPORT. One lemma per field per update of State, so that no proof unfolds a record update; and the
register read after each update. -/

namespace Sys2Proof.Machine

/-! ### The field configuration -/

@[simp] theorem setField_field (s : State) (f : FieldConfig) : (s.setField f).field = some f := rfl
@[simp] theorem setField_e0 (s : State) (f : FieldConfig) : (s.setField f).e0 = s.e0 := rfl
@[simp] theorem setField_e1 (s : State) (f : FieldConfig) : (s.setField f).e1 = s.e1 := rfl
@[simp] theorem setField_e2 (s : State) (f : FieldConfig) : (s.setField f).e2 = s.e2 := rfl
@[simp] theorem setField_e3 (s : State) (f : FieldConfig) : (s.setField f).e3 = s.e3 := rfl
@[simp] theorem setField_command (s : State) (f : FieldConfig) : (s.setField f).command = s.command := rfl
@[simp] theorem setField_response (s : State) (f : FieldConfig) : (s.setField f).response = s.response := rfl
@[simp] theorem setField_inputs (s : State) (f : FieldConfig) : (s.setField f).inputs = s.inputs := rfl
@[simp] theorem setField_received (s : State) (f : FieldConfig) : (s.setField f).received = s.received := rfl
@[simp] theorem setField_reg (s : State) (f : FieldConfig) (q : Reg) : (s.setField f).reg q = s.reg q := by cases q <;> rfl

/-! ### The end of a command -/

@[simp] theorem answer_field (s : State) (r : RspWord) : (answer r s).field = s.field := rfl
@[simp] theorem answer_e0 (s : State) (r : RspWord) : (answer r s).e0 = s.e0 := rfl
@[simp] theorem answer_e1 (s : State) (r : RspWord) : (answer r s).e1 = s.e1 := rfl
@[simp] theorem answer_e2 (s : State) (r : RspWord) : (answer r s).e2 = s.e2 := rfl
@[simp] theorem answer_e3 (s : State) (r : RspWord) : (answer r s).e3 = s.e3 := rfl
@[simp] theorem answer_command (s : State) (r : RspWord) : (answer r s).command = none := rfl
@[simp] theorem answer_response (s : State) (r : RspWord) : (answer r s).response = some r := rfl
@[simp] theorem answer_inputs (s : State) (r : RspWord) : (answer r s).inputs = s.inputs := rfl
@[simp] theorem answer_received (s : State) (r : RspWord) : (answer r s).received = s.received := rfl
@[simp] theorem answer_reg (s : State) (r : RspWord) (q : Reg) : (answer r s).reg q = s.reg q := by cases q <;> rfl

/-! ### A success -/

@[simp] theorem respond_field (s : State) (w : BitVec 6) (v : Nat) : (respond w v s).field = s.field := rfl
@[simp] theorem respond_e0 (s : State) (w : BitVec 6) (v : Nat) : (respond w v s).e0 = s.e0 := rfl
@[simp] theorem respond_e1 (s : State) (w : BitVec 6) (v : Nat) : (respond w v s).e1 = s.e1 := rfl
@[simp] theorem respond_e2 (s : State) (w : BitVec 6) (v : Nat) : (respond w v s).e2 = s.e2 := rfl
@[simp] theorem respond_e3 (s : State) (w : BitVec 6) (v : Nat) : (respond w v s).e3 = s.e3 := rfl
@[simp] theorem respond_command (s : State) (w : BitVec 6) (v : Nat) : (respond w v s).command = none := rfl
@[simp] theorem respond_response (s : State) (w : BitVec 6) (v : Nat) : (respond w v s).response = some (okWord w v) := rfl
@[simp] theorem respond_inputs (s : State) (w : BitVec 6) (v : Nat) : (respond w v s).inputs = s.inputs := rfl
@[simp] theorem respond_received (s : State) (w : BitVec 6) (v : Nat) : (respond w v s).received = s.received := rfl
@[simp] theorem respond_reg (s : State) (w : BitVec 6) (v : Nat) (q : Reg) : (respond w v s).reg q = s.reg q := by cases q <;> rfl

/-! ### An error -/

@[simp] theorem raise_field (s : State) (k : ErrorKind) : (raise k s).field = s.field := rfl
@[simp] theorem raise_e0 (s : State) (k : ErrorKind) : (raise k s).e0 = s.e0 := rfl
@[simp] theorem raise_e1 (s : State) (k : ErrorKind) : (raise k s).e1 = s.e1 := rfl
@[simp] theorem raise_e2 (s : State) (k : ErrorKind) : (raise k s).e2 = s.e2 := rfl
@[simp] theorem raise_e3 (s : State) (k : ErrorKind) : (raise k s).e3 = s.e3 := rfl
@[simp] theorem raise_command (s : State) (k : ErrorKind) : (raise k s).command = none := rfl
@[simp] theorem raise_response (s : State) (k : ErrorKind) : (raise k s).response = some (errorWord k) := rfl
@[simp] theorem raise_inputs (s : State) (k : ErrorKind) : (raise k s).inputs = s.inputs := rfl
@[simp] theorem raise_received (s : State) (k : ErrorKind) : (raise k s).received = s.received := rfl
@[simp] theorem raise_reg (s : State) (k : ErrorKind) (q : Reg) : (raise k s).reg q = s.reg q := by cases q <;> rfl

/-! ### Reset -/

@[simp] theorem resetCore_field (s : State) : (resetCore s).field = none := rfl
@[simp] theorem resetCore_e0 (s : State) : (resetCore s).e0 = none := rfl
@[simp] theorem resetCore_e1 (s : State) : (resetCore s).e1 = none := rfl
@[simp] theorem resetCore_e2 (s : State) : (resetCore s).e2 = none := rfl
@[simp] theorem resetCore_e3 (s : State) : (resetCore s).e3 = none := rfl
@[simp] theorem resetCore_command (s : State) : (resetCore s).command = none := rfl
@[simp] theorem resetCore_response (s : State) : (resetCore s).response = none := rfl
@[simp] theorem resetCore_inputs (s : State) : (resetCore s).inputs = s.inputs := rfl
@[simp] theorem resetCore_received (s : State) : (resetCore s).received = s.received := rfl
@[simp] theorem resetCore_reg (s : State) (q : Reg) : (resetCore s).reg q = none := by cases q <;> rfl

/-! ### The edge passes -/

@[simp] theorem dropInput_field (s : State) : (dropInput s).field = s.field := rfl
@[simp] theorem dropInput_e0 (s : State) : (dropInput s).e0 = s.e0 := rfl
@[simp] theorem dropInput_e1 (s : State) : (dropInput s).e1 = s.e1 := rfl
@[simp] theorem dropInput_e2 (s : State) : (dropInput s).e2 = s.e2 := rfl
@[simp] theorem dropInput_e3 (s : State) : (dropInput s).e3 = s.e3 := rfl
@[simp] theorem dropInput_command (s : State) : (dropInput s).command = s.command := rfl
@[simp] theorem dropInput_response (s : State) : (dropInput s).response = s.response := rfl
@[simp] theorem dropInput_inputs (s : State) : (dropInput s).inputs = s.inputs.tail := rfl
@[simp] theorem dropInput_received (s : State) : (dropInput s).received = s.received := rfl
@[simp] theorem dropInput_reg (s : State) (q : Reg) : (dropInput s).reg q = s.reg q := by cases q <;> rfl

/-! ### A command in progress -/

@[simp] theorem withCommand_field (s : State) (w : CmdWord) : (s.withCommand w).field = s.field := rfl
@[simp] theorem withCommand_e0 (s : State) (w : CmdWord) : (s.withCommand w).e0 = s.e0 := rfl
@[simp] theorem withCommand_e1 (s : State) (w : CmdWord) : (s.withCommand w).e1 = s.e1 := rfl
@[simp] theorem withCommand_e2 (s : State) (w : CmdWord) : (s.withCommand w).e2 = s.e2 := rfl
@[simp] theorem withCommand_e3 (s : State) (w : CmdWord) : (s.withCommand w).e3 = s.e3 := rfl
@[simp] theorem withCommand_command (s : State) (w : CmdWord) : (s.withCommand w).command = some w := rfl
@[simp] theorem withCommand_response (s : State) (w : CmdWord) : (s.withCommand w).response = none := rfl
@[simp] theorem withCommand_inputs (s : State) (w : CmdWord) : (s.withCommand w).inputs = .idle :: s.inputs := rfl
@[simp] theorem withCommand_received (s : State) (w : CmdWord) : (s.withCommand w).received = s.received := rfl
@[simp] theorem withCommand_reg (s : State) (w : CmdWord) (q : Reg) : (s.withCommand w).reg q = s.reg q := by cases q <;> rfl

/-! ### An element register -/

@[simp] theorem setReg_field (s : State) (r : Reg) (e : Element) : (s.setReg r e).field = s.field := by cases r <;> rfl
@[simp] theorem setReg_command (s : State) (r : Reg) (e : Element) : (s.setReg r e).command = s.command := by cases r <;> rfl
@[simp] theorem setReg_response (s : State) (r : Reg) (e : Element) : (s.setReg r e).response = s.response := by cases r <;> rfl
@[simp] theorem setReg_inputs (s : State) (r : Reg) (e : Element) : (s.setReg r e).inputs = s.inputs := by cases r <;> rfl
@[simp] theorem setReg_received (s : State) (r : Reg) (e : Element) : (s.setReg r e).received = s.received := by cases r <;> rfl

/-- A read after a write to the same register gives the element written. -/
@[simp] theorem setReg_reg_same (s : State) (r : Reg) (e : Element) : (s.setReg r e).reg r = some e := by cases r <;> rfl

/-- A write leaves every other register alone. -/
theorem setReg_reg_of_ne (s : State) (e : Element) {r q : Reg} (h : q ≠ r) : (s.setReg r e).reg q = s.reg q := by
  cases r <;> cases q <;> first | rfl | exact absurd rfl h

theorem setReg_reg (s : State) (r : Reg) (e : Element) (q : Reg) : (s.setReg r e).reg q = if q = r then some e else s.reg q := by
  split
  · rename_i h; subst h; simp
  · rename_i h; exact setReg_reg_of_ne s e h

/-! ### The channels -/

@[simp] theorem takeResponse_field (p : PortInput) (s : State) : (takeResponse p s).field = s.field := by
  unfold takeResponse; split <;> [rfl; (split <;> rfl)]
@[simp] theorem takeResponse_e0 (p : PortInput) (s : State) : (takeResponse p s).e0 = s.e0 := by
  unfold takeResponse; split <;> [rfl; (split <;> rfl)]
@[simp] theorem takeResponse_e1 (p : PortInput) (s : State) : (takeResponse p s).e1 = s.e1 := by
  unfold takeResponse; split <;> [rfl; (split <;> rfl)]
@[simp] theorem takeResponse_e2 (p : PortInput) (s : State) : (takeResponse p s).e2 = s.e2 := by
  unfold takeResponse; split <;> [rfl; (split <;> rfl)]
@[simp] theorem takeResponse_e3 (p : PortInput) (s : State) : (takeResponse p s).e3 = s.e3 := by
  unfold takeResponse; split <;> [rfl; (split <;> rfl)]
@[simp] theorem takeResponse_command (p : PortInput) (s : State) : (takeResponse p s).command = s.command := by
  unfold takeResponse; split <;> [rfl; (split <;> rfl)]
@[simp] theorem takeResponse_inputs (p : PortInput) (s : State) : (takeResponse p s).inputs = s.inputs := by
  unfold takeResponse; split <;> [rfl; (split <;> rfl)]
@[simp] theorem takeResponse_reg (p : PortInput) (s : State) (q : Reg) : (takeResponse p s).reg q = s.reg q := by cases q <;> simp [State.reg]

@[simp] theorem acceptCommand_field (p : PortInput) (s : State) : (acceptCommand p s).field = s.field := by
  unfold acceptCommand; split <;> [rfl; (split <;> rfl)]
@[simp] theorem acceptCommand_e0 (p : PortInput) (s : State) : (acceptCommand p s).e0 = s.e0 := by
  unfold acceptCommand; split <;> [rfl; (split <;> rfl)]
@[simp] theorem acceptCommand_e1 (p : PortInput) (s : State) : (acceptCommand p s).e1 = s.e1 := by
  unfold acceptCommand; split <;> [rfl; (split <;> rfl)]
@[simp] theorem acceptCommand_e2 (p : PortInput) (s : State) : (acceptCommand p s).e2 = s.e2 := by
  unfold acceptCommand; split <;> [rfl; (split <;> rfl)]
@[simp] theorem acceptCommand_e3 (p : PortInput) (s : State) : (acceptCommand p s).e3 = s.e3 := by
  unfold acceptCommand; split <;> [rfl; (split <;> rfl)]
@[simp] theorem acceptCommand_response (p : PortInput) (s : State) : (acceptCommand p s).response = s.response := by
  unfold acceptCommand; split <;> [rfl; (split <;> rfl)]
@[simp] theorem acceptCommand_inputs (p : PortInput) (s : State) : (acceptCommand p s).inputs = s.inputs := by
  unfold acceptCommand; split <;> [rfl; (split <;> rfl)]
@[simp] theorem acceptCommand_received (p : PortInput) (s : State) : (acceptCommand p s).received = s.received := by
  unfold acceptCommand; split <;> [rfl; (split <;> rfl)]
@[simp] theorem acceptCommand_reg (p : PortInput) (s : State) (q : Reg) : (acceptCommand p s).reg q = s.reg q := by cases q <;> simp [State.reg]

end Sys2Proof.Machine
end

