-- ==== Sys2Proof/Laws/Ops.lean ====
section
/-! SUPPORT. What each shared operation can do, said once: the operand checks (10_state.md R31;
60_exceptions.md R188 to R195), the element table (20_memory.md R42) and the end of a command
(60_exceptions.md R190). -/

namespace Sys2Proof.Machine

/-! ### Operands -/

theorem readField_ok {s : State} {f : FieldConfig} : readField s = .ok f ↔ s.field = some f := by
  unfold readField; cases s.field <;> simp

theorem readField_error {s : State} {k : ErrorKind} :
    readField s = .error k ↔ s.field = none ∧ k = .noField := by
  unfold readField; cases s.field <;> simp [eq_comm]

theorem readSource_ok {s : State} {r : Reg} {e : Element} : readSource r s = .ok e ↔ s.reg r = some e := by
  unfold readSource; cases s.reg r <;> simp

theorem readSource_error {s : State} {r : Reg} {k : ErrorKind} :
    readSource r s = .error k ↔ s.reg r = none ∧ k = .emptyRegister := by
  unfold readSource; cases s.reg r <;> simp [eq_comm]

theorem readPair_ok {s : State} {rs1 rs2 : Reg} {ab : Element × Element} :
    readPair rs1 rs2 s = .ok ab ↔ s.reg rs1 = some ab.1 ∧ s.reg rs2 = some ab.2 := by
  unfold readPair
  cases s.reg rs1 <;> cases s.reg rs2 <;> simp [Prod.ext_iff]

theorem readPair_error {s : State} {rs1 rs2 : Reg} {k : ErrorKind} :
    readPair rs1 rs2 s = .error k ↔ (s.reg rs1 = none ∨ s.reg rs2 = none) ∧ k = .emptyRegister := by
  unfold readPair
  cases s.reg rs1 <;> cases s.reg rs2 <;> simp [eq_comm]

theorem sameWidth_iff {a b : Element} : sameWidth a b = true ↔ a.width = b.width := by
  simp [sameWidth]

theorem sameField_iff {a b : Element} : sameField a b = true ↔ a.width = b.width ∧ a.poly = b.poly := by
  simp [sameField]

theorem isZero_iff {e : Element} : isZero e = true ↔ e.value = 0 := by simp [isZero]

/-- Two operands of one width were read (R130). -/
theorem readSameWidth_ok {s : State} {rs1 rs2 : Reg} {ab : Element × Element} :
    readSameWidth rs1 rs2 s = .ok ab ↔
      s.reg rs1 = some ab.1 ∧ s.reg rs2 = some ab.2 ∧ ab.1.width = ab.2.width := by
  unfold readSameWidth
  cases h : readPair rs1 rs2 s with
  | error k =>
    have := (readPair_error.1 h).1
    rcases this with h | h <;> simp [h]
  | ok cd =>
    obtain ⟨h1, h2⟩ := readPair_ok.1 h
    rw [h1, h2]
    by_cases hw : sameWidth cd.1 cd.2
    · have := sameWidth_iff.1 hw
      simp only [hw, if_true]
      constructor
      · rintro ⟨rfl⟩; exact ⟨rfl, rfl, this⟩
      · rintro ⟨e1, e2, -⟩; simp at e1 e2; rw [e1, e2]
    · have := fun e => hw (sameWidth_iff.2 e)
      simp only [hw]
      constructor
      · intro h; cases h
      · rintro ⟨e1, e2, e⟩; simp at e1 e2; rw [← e1, ← e2] at e; exact absurd e this

/-- Two operands of one field were read (R140, R152, R165). -/
theorem readSameField_ok {s : State} {rs1 rs2 : Reg} {ab : Element × Element} :
    readSameField rs1 rs2 s = .ok ab ↔
      s.reg rs1 = some ab.1 ∧ s.reg rs2 = some ab.2 ∧
        ab.1.width = ab.2.width ∧ ab.1.poly = ab.2.poly := by
  unfold readSameField
  cases h : readPair rs1 rs2 s with
  | error k =>
    have := (readPair_error.1 h).1
    rcases this with h | h <;> simp [h]
  | ok cd =>
    obtain ⟨h1, h2⟩ := readPair_ok.1 h
    rw [h1, h2]
    by_cases hw : sameField cd.1 cd.2
    · have := sameField_iff.1 hw
      simp only [hw, if_true]
      constructor
      · rintro ⟨rfl⟩; exact ⟨rfl, rfl, this⟩
      · rintro ⟨e1, e2, -⟩; simp at e1 e2; rw [e1, e2]
    · have := fun e => hw (sameField_iff.2 e)
      simp only [hw]
      constructor
      · intro h; cases h
      · rintro ⟨e1, e2, e⟩; simp at e1 e2; rw [← e1, ← e2] at e; exact absurd e this

/-- Why two operands of one width were not read: empty first, then unequal widths (R196). -/
theorem readSameWidth_error {s : State} {rs1 rs2 : Reg} {k : ErrorKind} :
    readSameWidth rs1 rs2 s = .error k ↔
      ((s.reg rs1 = none ∨ s.reg rs2 = none) ∧ k = .emptyRegister) ∨
        (∃ a b, s.reg rs1 = some a ∧ s.reg rs2 = some b ∧ a.width ≠ b.width) ∧
          k = .incompatibleOperands := by
  unfold readSameWidth readPair
  cases h1 : s.reg rs1 with
  | none => simp [eq_comm]
  | some a =>
    cases h2 : s.reg rs2 with
    | none => simp [eq_comm]
    | some b =>
      by_cases hw : a.width = b.width
      · simp [sameWidth, hw]
      · have : sameWidth a b = false := by
          rw [Bool.eq_false_iff]; exact fun h => hw (sameWidth_iff.1 h)
        simp [this, hw, @eq_comm _ k]

/-- Why two operands of one field were not read (R196). -/
theorem readSameField_error {s : State} {rs1 rs2 : Reg} {k : ErrorKind} :
    readSameField rs1 rs2 s = .error k ↔
      ((s.reg rs1 = none ∨ s.reg rs2 = none) ∧ k = .emptyRegister) ∨
        (∃ a b, s.reg rs1 = some a ∧ s.reg rs2 = some b ∧
            ¬ (a.width = b.width ∧ a.poly = b.poly)) ∧
          k = .incompatibleOperands := by
  unfold readSameField readPair
  cases h1 : s.reg rs1 with
  | none => simp [eq_comm]
  | some a =>
    cases h2 : s.reg rs2 with
    | none => simp [eq_comm]
    | some b =>
      by_cases hw : a.width = b.width ∧ a.poly = b.poly
      · simp [sameField, hw]
      · have : sameField a b = false := by
          rw [Bool.eq_false_iff]; exact fun h => hw (sameField_iff.1 h)
        simp only [this, Option.some.injEq, reduceCtorEq, or_self, false_and, false_or]
        simp only [if_false, Except.error.injEq]
        exact ⟨fun h => ⟨⟨a, b, rfl, rfl, hw⟩, h.symm⟩, fun h => h.2.symm⟩

/-! ### The element table -/

/-- An index in range reads its element (R42). -/
theorem elemRead_ok {f : FieldConfig} {i : Nat} {e : Element} :
    elemRead f i = .ok e ↔
      i < 2 ^ f.m.toNat ∧ e = { value := BitVec.ofNat 32 i, width := f.m, poly := f.p } := by
  unfold elemRead
  split
  · rename_i h
    simp; intro h'; omega
  · rename_i h
    simp [eq_comm]; intro _; omega

/-- Every other index raises `IndexOutOfRange` (R42, R46). -/
theorem elemRead_error {f : FieldConfig} {i : Nat} {k : ErrorKind} :
    elemRead f i = .error k ↔ 2 ^ f.m.toNat ≤ i ∧ k = .indexOutOfRange := by
  unfold elemRead
  split
  · rename_i h; simp [eq_comm]; intro _; exact h
  · rename_i h; simp; intro h'; omega

/-! ### The end of a command -/

/-- Everything `commit` can do: write the destination and answer, or answer the error (R24, R190). -/
theorem commit_cases (rd : Reg) (result : Except ErrorKind Element) (s : State) :
    (∃ e, result = .ok e ∧ commit rd result s = respond e.width e.value.toNat (s.setReg rd e)) ∨
      (∃ k, result = .error k ∧ commit rd result s = raise k s) := by
  cases result with
  | ok e => exact .inl ⟨e, rfl, rfl⟩
  | error k => exact .inr ⟨k, rfl, rfl⟩

/-- What any command ends with: its response, the host's side as it was, and no register changed but the
one `commit` writes (R24). -/
theorem commit_frame (rd : Reg) (result : Except ErrorKind Element) (s : State) :
    (commit rd result s).field = s.field ∧ (commit rd result s).command = none ∧
      (commit rd result s).inputs = s.inputs ∧ (commit rd result s).received = s.received ∧
        ∀ q, q ≠ rd → (commit rd result s).reg q = s.reg q := by
  rcases commit_cases rd result s with ⟨e, -, h⟩ | ⟨k, -, h⟩ <;> rw [h]
  · simp only [respond_field, setReg_field, respond_command, respond_inputs, setReg_inputs,
      respond_received, setReg_received, respond_reg, true_and]
    exact fun q hq => setReg_reg_of_ne s e hq
  · simp

end Sys2Proof.Machine
end

