-- ==== Sys2Proof/Laws/PerInstr.lean ====
section
/-! SUPPORT. Statements about every command as syntax, one lemma per constructor. `EncodesRow`: the word
of a well-formed command carries the opcode of its row and a zero Z field (30_encoding.md R61, R63,
R67). -/

namespace Sys2Proof.Laws

/-- The encoded word has the opcode of the command's row and Z zero. -/
def EncodesRow.Statement (i : Instr) : Prop :=
  i.WellFormed → fieldOPC (encode i) = fieldOPC (rowMatch i) ∧ fieldZ (encode i) = 0

/-- A packed word whose fields fit has the opcode packed, that of the row given, and Z zero. -/
theorem opcode_and_zero (opc rd rs1 rs2 m imm : Nat) {row : CmdWord} (hrow : opc = fieldOPC row)
    (ho : opc < 16) (hd : rd < 4) (h1 : rs1 < 4) (h2 : rs2 < 4) (hm : m < 64) (hi : imm < 2 ^ 33) :
    fieldOPC (packFields opc rd rs1 rs2 m imm) = fieldOPC row ∧
      fieldZ (packFields opc rd rs1 rs2 m imm) = 0 :=
  have h := fields_packFields ho hd h1 h2 hm hi
  ⟨h.1.trans hrow, h.2.2.2.2.2.1⟩

/-- The same of a command without M and IMM. -/
theorem opcode_and_zero_of_regs (opc rd rs1 rs2 : Nat) {row : CmdWord} (hrow : opc = fieldOPC row)
    (ho : opc < 16) (hd : rd < 4) (h1 : rs1 < 4) (h2 : rs2 < 4) :
    fieldOPC (packFields opc rd rs1 rs2 0 0) = fieldOPC row ∧
      fieldZ (packFields opc rd rs1 rs2 0 0) = 0 :=
  opcode_and_zero opc rd rs1 rs2 0 0 hrow ho hd h1 h2 (by decide) (by decide)

theorem EncodesRow.config (m poly : Nat) : EncodesRow.Statement (.config m poly) := by
  intro h
  simp only [Instr.WellFormed, Instr.wellFormed, Bool.and_eq_true, decide_eq_true_eq] at h
  exact opcode_and_zero 1 0 0 0 m poly (by simp [fieldOPC_eq, rowMatch]) (by decide)
    (by decide) (by decide) (by decide) h.1 h.2

theorem EncodesRow.count : EncodesRow.Statement .count := fun _ =>
  opcode_and_zero_of_regs 2 0 0 0 (by simp [fieldOPC_eq, rowMatch]) (by decide)
    (by decide) (by decide) (by decide)

theorem EncodesRow.elem (rd : Reg) (index : Nat) : EncodesRow.Statement (.elem rd index) := by
  intro h
  simp only [Instr.WellFormed, Instr.wellFormed, decide_eq_true_eq] at h
  exact opcode_and_zero 3 (regNumber rd) 0 0 0 index (by simp [fieldOPC_eq, rowMatch]) (by decide) (regNumber_lt rd) (by decide) (by decide)
    (by decide) h

theorem EncodesRow.add (rd rs1 rs2 : Reg) : EncodesRow.Statement (.add rd rs1 rs2) := fun _ =>
  opcode_and_zero_of_regs 4 _ _ _ (by simp [fieldOPC_eq, rowMatch]) (by decide)
    (regNumber_lt rd) (regNumber_lt rs1) (regNumber_lt rs2)

theorem EncodesRow.sub (rd rs1 rs2 : Reg) : EncodesRow.Statement (.sub rd rs1 rs2) := fun _ =>
  opcode_and_zero_of_regs 5 _ _ _ (by simp [fieldOPC_eq, rowMatch]) (by decide)
    (regNumber_lt rd) (regNumber_lt rs1) (regNumber_lt rs2)

theorem EncodesRow.mul (rd rs1 rs2 : Reg) : EncodesRow.Statement (.mul rd rs1 rs2) := fun _ =>
  opcode_and_zero_of_regs 6 _ _ _ (by simp [fieldOPC_eq, rowMatch]) (by decide)
    (regNumber_lt rd) (regNumber_lt rs1) (regNumber_lt rs2)

theorem EncodesRow.div (rd rs1 rs2 : Reg) : EncodesRow.Statement (.div rd rs1 rs2) := fun _ =>
  opcode_and_zero_of_regs 7 _ _ _ (by simp [fieldOPC_eq, rowMatch]) (by decide)
    (regNumber_lt rd) (regNumber_lt rs1) (regNumber_lt rs2)

theorem EncodesRow.gcd (rd rs1 rs2 : Reg) : EncodesRow.Statement (.gcd rd rs1 rs2) := fun _ =>
  opcode_and_zero_of_regs 9 _ _ _ (by simp [fieldOPC_eq, rowMatch]) (by decide)
    (regNumber_lt rd) (regNumber_lt rs1) (regNumber_lt rs2)

theorem EncodesRow.inv (rd rs1 : Reg) : EncodesRow.Statement (.inv rd rs1) := fun _ =>
  opcode_and_zero_of_regs 8 _ _ 0 (by simp [fieldOPC_eq, rowMatch]) (by decide)
    (regNumber_lt rd) (regNumber_lt rs1) (by decide)

theorem EncodesRow.rdv (rs1 : Reg) : EncodesRow.Statement (.rdv rs1) := fun _ =>
  opcode_and_zero_of_regs 10 0 _ 0 (by simp [fieldOPC_eq, rowMatch]) (by decide)
    (by decide) (regNumber_lt rs1) (by decide)

theorem EncodesRow.rdp (rs1 : Reg) : EncodesRow.Statement (.rdp rs1) := fun _ =>
  opcode_and_zero_of_regs 11 0 _ 0 (by simp [fieldOPC_eq, rowMatch]) (by decide)
    (by decide) (regNumber_lt rs1) (by decide)

end Sys2Proof.Laws
end

