-- ==== Sys2Proof/Laws/Response.lean ====
section
/-! SUPPORT. The fields of response words (30_encoding.md R64 to R66), and each word as the number
`STATUS << 60 | WIDTH << 54 | VALUE`. -/

namespace Sys2Proof.Machine

theorem responseWord_toNat (st : BitVec 4) (w : BitVec 6) (v : BitVec 33) :
    (responseWord st w v).toNat = st.toNat * 2 ^ 60 + w.toNat * 2 ^ 54 + v.toNat := by
  have h1 := st.isLt
  have h2 := w.isLt
  have h3 := v.isLt
  have e : responseWord st w v = BitVec.ofNat 64 (st.toNat * 2 ^ 60 + w.toNat * 2 ^ 54 + v.toNat) := by
    apply BitVec.eq_of_toNat_eq
    simp only [responseWord, BitVec.toNat_append, BitVec.toNat_ofNat]
    rw [← Nat.shiftLeft_add_eq_or_of_lt (by simpa using h3),
      ← Nat.shiftLeft_add_eq_or_of_lt (by simp), ← Nat.shiftLeft_add_eq_or_of_lt (by simpa using h2)]
    have z : (0 : BitVec 21).toNat = 0 := rfl
    simp only [Nat.shiftLeft_eq, z]
    omega
  rw [e, BitVec.toNat_ofNat, Nat.mod_eq_of_lt (by omega)]

theorem extract_toNat (r : RspWord) (lo n : Nat) :
    (r.extractLsb' lo n).toNat = r.toNat / 2 ^ lo % 2 ^ n := by
  rw [BitVec.extractLsb'_toNat, Nat.shiftRight_eq_div_pow]

@[simp] theorem statusOf_responseWord (st : BitVec 4) (w : BitVec 6) (v : BitVec 33) :
    statusOf (responseWord st w v) = st := by
  have h1 := st.isLt; have h2 := w.isLt; have h3 := v.isLt
  apply BitVec.eq_of_toNat_eq
  rw [statusOf, extract_toNat, responseWord_toNat]; omega

@[simp] theorem widthOf_responseWord (st : BitVec 4) (w : BitVec 6) (v : BitVec 33) :
    widthOf (responseWord st w v) = w := by
  have h1 := st.isLt; have h2 := w.isLt; have h3 := v.isLt
  apply BitVec.eq_of_toNat_eq
  rw [widthOf, extract_toNat, responseWord_toNat]; omega

@[simp] theorem zeroOf_responseWord (st : BitVec 4) (w : BitVec 6) (v : BitVec 33) :
    zeroOf (responseWord st w v) = 0 := by
  have h1 := st.isLt; have h2 := w.isLt; have h3 := v.isLt
  apply BitVec.eq_of_toNat_eq
  rw [zeroOf, extract_toNat, responseWord_toNat]
  have z : (0 : BitVec 21).toNat = 0 := rfl
  rw [z]; omega

@[simp] theorem valueOf_responseWord (st : BitVec 4) (w : BitVec 6) (v : BitVec 33) :
    valueOf (responseWord st w v) = v := by
  have h1 := st.isLt; have h2 := w.isLt; have h3 := v.isLt
  apply BitVec.eq_of_toNat_eq
  rw [valueOf, extract_toNat, responseWord_toNat]; omega

/-- A response word is its number. -/
theorem responseWord_eq_rspNumber (st : BitVec 4) (w : BitVec 6) (v : BitVec 33) :
    responseWord st w v = rspNumber st.toNat w.toNat v.toNat := by
  apply BitVec.eq_of_toNat_eq
  rw [responseWord_toNat, rspNumber, BitVec.toNat_ofNat, Nat.mod_eq_of_lt]
  have h1 := st.isLt; have h2 := w.isLt; have h3 := v.isLt
  omega

/-- `respond(width, value)` as a number (R64). -/
theorem okWord_eq_rspNumber (w : BitVec 6) {v : Nat} (h : v < 2 ^ 33) :
    okWord w v = rspNumber 0 w.toNat v := by
  rw [okWord, responseWord_eq_rspNumber, BitVec.toNat_ofNat, Nat.mod_eq_of_lt h]; rfl

/-- `raise <Kind>` as a number (R66). -/
theorem errorWord_eq_rspNumber (k : ErrorKind) : errorWord k = rspNumber (errorCode k).toNat 0 0 := by
  rw [errorWord, responseWord_eq_rspNumber]; rfl

/-- Error words are told apart by the code alone (R66). -/
theorem errorWord_injective {k l : ErrorKind} (h : errorWord k = errorWord l) : k = l := by
  have := congrArg statusOf h
  simp only [errorWord, statusOf_responseWord] at this
  cases k <;> cases l <;> first | rfl | exact absurd this (by decide)

/-- No success has an error's word. -/
theorem okWord_ne_errorWord (w : BitVec 6) (v : Nat) (k : ErrorKind) : okWord w v ≠ errorWord k := by
  intro h
  have := congrArg statusOf h
  simp only [errorWord, okWord, statusOf_responseWord] at this
  cases k <;> exact absurd this (by decide)

/-- A success of width 1 to 32 is a legal response (R64). -/
theorem okWord_legal {w : BitVec 6} (lo : 1 ≤ w.toNat) (hi : w.toNat ≤ 32) (v : Nat) :
    LegalResponse (okWord w v) := by
  simp [LegalResponse, okWord, lo, hi]

/-- The seven kinds that commands raise give legal responses (R185, R191, R192). -/
theorem errorWord_legal {k : ErrorKind} (h5 : k ≠ .widthMismatch) (h6 : k ≠ .overflow) :
    LegalResponse (errorWord k) := by
  cases k <;> first | exact absurd rfl h5 | exact absurd rfl h6 | simp [LegalResponse, errorWord, errorCode]

end Sys2Proof.Machine
end

