-- ==== Sys2Proof/Laws/Step.lean ====
section
/-! SUPPORT. What one rising edge can do, said once (70_reset_and_hazards.md R215, R218, R225): an edge is
exactly one of a reset, an edge with a response pending, the execution of the command in progress, and
an idle edge. -/

namespace Sys2Proof.Machine

theorem atEdge_reset {p : PortInput} (h : p.rst = true) (s : State) :
    atEdge p s = .next (resetCore (takeResponse p s)) := by simp [atEdge, h]

theorem atEdge_response {p : PortInput} (h : p.rst = false) {s : State} {r : RspWord}
    (hr : s.response = some r) : atEdge p s = .next (takeResponse p s) := by
  simp [atEdge, h, hr]

theorem atEdge_command {p : PortInput} (h : p.rst = false) {s : State} {w : CmdWord}
    (hr : s.response = none) (hc : s.command = some w) : atEdge p s = runWord w s := by
  simp [atEdge, h, hr, hc]

theorem atEdge_idle {p : PortInput} (h : p.rst = false) {s : State} (hr : s.response = none)
    (hc : s.command = none) : atEdge p s = .next (acceptCommand p s) := by
  simp [atEdge, h, hr, hc]

/-- The four kinds of edge, and nothing else. -/
theorem atEdge_cases (p : PortInput) (s : State) :
    (p.rst = true ∧ atEdge p s = .next (resetCore (takeResponse p s))) ∨
      (p.rst = false ∧ s.response.isSome ∧ atEdge p s = .next (takeResponse p s)) ∨
      (p.rst = false ∧ s.response = none ∧ ∃ w, s.command = some w ∧ atEdge p s = runWord w s) ∨
      (p.rst = false ∧ s.response = none ∧ s.command = none ∧
        atEdge p s = .next (acceptCommand p s)) := by
  cases hp : p.rst with
  | true => exact .inl ⟨rfl, atEdge_reset hp s⟩
  | false =>
    cases hr : s.response with
    | some r => exact .inr (.inl ⟨rfl, rfl, atEdge_response hp hr⟩)
    | none =>
      cases hc : s.command with
      | some w => exact .inr (.inr (.inl ⟨rfl, rfl, w, rfl, atEdge_command hp hr hc⟩))
      | none => exact .inr (.inr (.inr ⟨rfl, rfl, rfl, atEdge_idle hp hr hc⟩))

/-- A word runs its command, or raises `IllegalCommand` (30_encoding.md R74). -/
theorem runWord_ok {w : CmdWord} {i : Instr} (h : decode w = .ok i) (s : State) :
    runWord w s = exec i s := by simp [runWord, h]

theorem runWord_error {w : CmdWord} {k : ErrorKind} (h : decode w = .error k) (s : State) :
    runWord w s = .next (raise k s) := by simp [runWord, h]

/-- A taken response: `rsp_valid` and `rsp_ready` both 1 (R225). -/
theorem takeResponse_ready {p : PortInput} (h : p.rspReady = true) {s : State} {r : RspWord}
    (hr : s.response = some r) :
    takeResponse p s = { s with response := none, received := s.received ++ [r] } := by
  simp [takeResponse, hr, h]

/-- A held response: `rsp_ready` is 0 (R225). -/
theorem takeResponse_hold {p : PortInput} (h : p.rspReady = false) (s : State) : takeResponse p s = s := by
  unfold takeResponse
  cases s.response <;> simp [h]

/-- A taken command: `cmd_valid` and `cmd_ready` both 1 (R225). -/
theorem acceptCommand_ready {p : PortInput} {w : CmdWord} (h : p.cmd = some w) {s : State}
    (hs : cmdReady s = true) : acceptCommand p s = { s with command := some w } := by
  simp [acceptCommand, h, hs]

/-- Nothing offered, nothing taken. -/
theorem acceptCommand_none {p : PortInput} (h : p.cmd = none) (s : State) : acceptCommand p s = s := by
  simp [acceptCommand, h]

end Sys2Proof.Machine
end

