-- ==== Sys2Proof/Tests/Slice0.lean ====
section
/-! SUPPORT. The author's tests. Expected values are those of 95_test_vectors.md (sections 1 to 3),
96_test_vectors_inv_gcd.md (sections 4.1 to 4.5) and the rules' own examples. Then the witnesses: for every
statement with hypotheses, a concrete state and operands that meet them together. -/

namespace Sys2Proof.Tests

open Sys2Proof Sys2Proof.Machine

/-! ### Helpers -/

/-- The state after the one step that runs the word w. -/
def after (s : State) (w : CmdWord) : Option State :=
  match step (s.withFetchWord 64 w.toNat) with
  | .next t => some t
  | .fault _ => none
  | .refused _ => none

/-- The response to the word w. -/
def answerTo (s : State) (w : CmdWord) : Option RspWord := (after s w).bind fun t => t.response

/-- The element in a register after the word w. -/
def regAfter (s : State) (w : CmdWord) (r : Reg) : Option Element := (after s w).bind fun t => t.reg r

/-- A decoded word, comparable. -/
def decoded (w : CmdWord) : Option Instr := decodeTableWord 64 w.toNat

/-- GF(2^4), P = 19, with `E0 = (a, 4, 3)`, `E1 = (b, 4, 3)`, E2 and E3 empty. -/
def gf16 (a b : BitVec 32) : State :=
  { State.reset with
    field := some { m := 4, p := 3 }
    e0 := some { value := a, width := 4, poly := 3 }
    e1 := some { value := b, width := 4, poly := 3 } }

/-- `E0 = (9, 4, 3)`, `E1 = (2, 4, 9)`, `E2 = (9, 8, 0x1B)`, E3 empty: elements of three fields. -/
def mixed : State :=
  { State.reset with
    field := some { m := 8, p := 0x1B }
    e0 := some { value := 9, width := 4, poly := 3 }
    e1 := some { value := 2, width := 4, poly := 9 }
    e2 := some { value := 9, width := 8, poly := 0x1B } }

/-- GF(2^32), P = 0x10000008D, with `E0 = 0xFFFFFFFF` and `E1 = 0x80000000`. -/
def widest : State :=
  { State.reset with
    field := some { m := 32, p := 0x8D }
    e0 := some { value := 0xFFFFFFFF, width := 32, poly := 0x8D }
    e1 := some { value := 0x80000000, width := 32, poly := 0x8D } }

/-! ### Well-formedness -/

theorem test_ill_formed_degree : (Instr.config 64 0).wellFormed = false := by decide
theorem test_ill_formed_polynomial : (Instr.config 4 (2 ^ 33)).wellFormed = false := by decide
theorem test_ill_formed_index : (Instr.elem .E0 (2 ^ 33)).wellFormed = false := by decide
theorem test_well_formed_limits :
    (Instr.config 63 (2 ^ 33 - 1)).wellFormed = true ∧ (Instr.elem .E3 (2 ^ 33 - 1)).wellFormed = true := by
  decide

/-! ### Decoding: each word written field by field, OPC, RD, RS1, RS2, M, Z, IMM (R61, R62) -/

theorem test_decode_config :
    decoded (0b0001#4 ++ 0b00#2 ++ 0b00#2 ++ 0b00#2 ++ 0b000100#6 ++ 0#15 ++ 0b10011#33) =
      some (.config 4 19) := by decide
theorem test_decode_count :
    decoded (0b0010#4 ++ 0b00#2 ++ 0b00#2 ++ 0b00#2 ++ 0b000000#6 ++ 0#15 ++ 0#33) = some .count := by decide
theorem test_decode_elem :
    decoded (0b0011#4 ++ 0b01#2 ++ 0b00#2 ++ 0b00#2 ++ 0b000000#6 ++ 0#15 ++ 0x1FFFFFFFF#33) =
      some (.elem .E1 0x1FFFFFFFF) := by decide
theorem test_decode_add :
    decoded (0b0100#4 ++ 0b11#2 ++ 0b01#2 ++ 0b00#2 ++ 0b000000#6 ++ 0#15 ++ 0#33) =
      some (.add .E3 .E1 .E0) := by decide
theorem test_decode_sub :
    decoded (0b0101#4 ++ 0b10#2 ++ 0b10#2 ++ 0b11#2 ++ 0b000000#6 ++ 0#15 ++ 0#33) =
      some (.sub .E2 .E2 .E3) := by decide
theorem test_decode_mul :
    decoded (0b0110#4 ++ 0b00#2 ++ 0b11#2 ++ 0b00#2 ++ 0b000000#6 ++ 0#15 ++ 0#33) =
      some (.mul .E0 .E3 .E0) := by decide
theorem test_decode_div :
    decoded (0b0111#4 ++ 0b10#2 ++ 0b00#2 ++ 0b01#2 ++ 0b000000#6 ++ 0#15 ++ 0#33) =
      some (.div .E2 .E0 .E1) := by decide
theorem test_decode_inv :
    decoded (0b1000#4 ++ 0b01#2 ++ 0b00#2 ++ 0b00#2 ++ 0b000000#6 ++ 0#15 ++ 0#33) =
      some (.inv .E1 .E0) := by decide
theorem test_decode_gcd :
    decoded (0b1001#4 ++ 0b11#2 ++ 0b00#2 ++ 0b01#2 ++ 0b000000#6 ++ 0#15 ++ 0#33) =
      some (.gcd .E3 .E0 .E1) := by decide
theorem test_decode_rdv :
    decoded (0b1010#4 ++ 0b00#2 ++ 0b10#2 ++ 0b00#2 ++ 0b000000#6 ++ 0#15 ++ 0#33) = some (.rdv .E2) := by
  decide
theorem test_decode_rdp :
    decoded (0b1011#4 ++ 0b00#2 ++ 0b10#2 ++ 0b00#2 ++ 0b000000#6 ++ 0#15 ++ 0#33) = some (.rdp .E2) := by
  decide

/-- 96_test_vectors_inv_gcd.md 4.4: unassigned opcodes. -/
theorem test_illegal_opcodes :
    [0x0000000000000000, 0xFFFFFFFFFFFFFFFF, 0xC000000000000000, 0xD000000000000000,
      0xE000000000000000].map decoded = [none, none, none, none, none] := by decide

/-- 96_test_vectors_inv_gcd.md 4.4: must-be-zero fields. -/
theorem test_illegal_fields :
    [0x4840000000000001, 0x4844000000000000, 0x4840800000000000, 0x2000000100000000,
      0x3D00000000000007, 0x8440000000000000, 0xA500000000000000, 0xB180000000000000,
      0x1404000000000013, 0x1000000200000013].map decoded =
      [none, none, none, none, none, none, none, none, none, none] := by decide

/-- Command words of 95_test_vectors.md, programs P1 and P3. -/
theorem test_encode_words :
    encode (.config 8 0x11B) = 0x100800000000011B ∧ encode (.elem .E3 5) = 0x3C00000000000005 ∧
      encode (.mul .E2 .E0 .E1) = 0x6840000000000000 ∧ encode (.inv .E1 .E1) = 0x8500000000000000 ∧
      encode (.gcd .E3 .E0 .E1) = 0x9C40000000000000 ∧ encode (.rdp .E2) = 0xB200000000000000 := by decide

/-! ### The written form (R76) -/

theorem test_assemble_binary :
    assemble "CONFIG 4, 0b10011 ; x^4+x+1".toList = some (.config 4 19) := by decide
theorem test_assemble_hexadecimal : assemble "ELEM E1, 0x1F".toList = some (.elem .E1 31) := by decide
theorem test_assemble_order : assemble "DIV E2, E0, E1".toList = some (.div .E2 .E0 .E1) := by decide
theorem test_asm_writes : asm (.elem .E3 15) = "ELEM E3, 15".toList := by decide

/-! ### The primitives -/

/-- 95_test_vectors.md 2.4. -/
theorem test_clmul : clmul 3 14 = 0x12 ∧ clmul 3 3 = 5 ∧ clmul 0x57 0x83 = 0x2B79 := by decide
theorem test_pdivmod :
    pdivmod 0x13 3 = (14, 1) ∧ pdivmod 3 0x13 = (0, 3) ∧ pdivmod 0x10000008D 0xFFFFFFFF = (3, 0x8C) := by
  decide

/-- 40_bitpolynomial.md R95: the least set bit. -/
theorem test_ctz : ctz 1 = 0 ∧ ctz 12 = 2 ∧ ctz 0x80000000 = 31 := by decide

/-- 95_test_vectors.md 2.3: in a field, in a ring that is none, and at width 32. -/
theorem test_mulcore :
    mulcore 0x57 0x83 8 0x1B = 0xC1 ∧ mulcore 7 7 4 5 = 0 ∧
      mulcore 0xFFFFFFFF 0x80000000 32 0x8D = 0x1FDA := by decide

/-- 96_test_vectors_inv_gcd.md 4.1: the table `XEUCLID(3, 19)`. -/
theorem test_xeuclid_table :
    xeuclid 3 19 =
      [{ index := 0, r := 3, q := none, s := 1, t := 0 },
       { index := 1, r := 0x13, q := none, s := 0, t := 1 },
       { index := 2, r := 3, q := some 0, s := 1, t := 0 },
       { index := 3, r := 1, q := some 14, s := 14, t := 1 },
       { index := 4, r := 0, q := some 3, s := 0x13, t := 3 }] := by decide

/-- 96_test_vectors_inv_gcd.md 4.1: an inverse, the no-inverse case of R155, and width 32. -/
theorem test_invcore :
    invcore 0x53 8 0x1B = 0xCA ∧ invcore 7 4 5 = 1 ∧ invcore 0xFFFFFFFF 32 0x8D = 0x17C232B5 := by decide

/-- 96_test_vectors_inv_gcd.md 4.3. -/
theorem test_bgcd : bgcd 6 4 = 2 ∧ bgcd 12 10 = 6 ∧ bgcd 0 9 = 9 ∧ bgcd 0xFF 0x55 = 0x55 := by decide

/-- 41_field.md R120; 95_test_vectors.md 2.1: width 8, value 0x57 and width 4, value 0. -/
theorem test_bit_string :
    bitChars 8 0x57 = "01010111".toList ∧ bitChars 4 0 = "0000".toList := by decide

/-! ### The commands, one step each -/

/-- 95_test_vectors.md 2.1: bits of the polynomial at and above m are ignored. -/
theorem test_config :
    ((after State.reset 0x10040001FFFFFFF3).bind fun t => t.field) = some { m := 4, p := 3 } ∧
      answerTo State.reset 0x10040001FFFFFFF3 = some 0x0100000000000013 := by decide
/-- 95_test_vectors.md 2.1: `CONFIG 0, 7` and a degree of 33, the field kept. -/
theorem test_config_invalid_degree :
    answerTo (gf16 9 0) 0x1000000000000007 = some 0x1000000000000000 ∧
      answerTo State.reset 0x1021000000000013 = some 0x1000000000000000 ∧
      ((after (gf16 9 0) 0x1000000000000007).bind fun t => t.field) = some { m := 4, p := 3 } := by decide

/-- 95_test_vectors.md P6: the count 2^32 needs bit 32. -/
theorem test_count : answerTo widest 0x2000000000000000 = some 0x0800000100000000 := by decide
theorem test_count_no_field : answerTo State.reset 0x2000000000000000 = some 0x8000000000000000 := by decide

/-- 95_test_vectors.md 2.1. -/
theorem test_elem :
    answerTo (gf16 9 0) 0x3C0000000000000F = some 0x010000000000000F ∧
      regAfter (gf16 9 0) 0x3C0000000000000F .E3 = some { value := 15, width := 4, poly := 3 } := by decide
theorem test_elem_out_of_range :
    answerTo widest 0x3800000100000000 = some 0x2000000000000000 ∧
      regAfter widest 0x3800000100000000 .E2 = none := by decide

/-- 95_test_vectors.md 2.2: unequal polynomials add, with the first operand's copy. -/
theorem test_add :
    answerTo mixed 0x4D00000000000000 = some 0x010000000000000B ∧
      regAfter mixed 0x4D00000000000000 .E3 = some { value := 11, width := 4, poly := 9 } := by decide
theorem test_add_incompatible : answerTo mixed 0x4C80000000000000 = some 0x3000000000000000 := by decide

/-- 95_test_vectors.md 2.2. -/
theorem test_sub :
    answerTo mixed 0x5C40000000000000 = some 0x010000000000000B ∧
      regAfter mixed 0x5C40000000000000 .E3 = some { value := 11, width := 4, poly := 3 } := by decide
theorem test_sub_keeps_register :
    answerTo mixed 0x5200000000000000 = some 0x3000000000000000 ∧
      regAfter mixed 0x5200000000000000 .E0 = some { value := 9, width := 4, poly := 3 } := by decide

/-- 95_test_vectors.md 2.3: squaring in place, in GF(2^4)/25. -/
theorem test_mul :
    answerTo mixed 0x6540000000000000 = some 0x0100000000000004 ∧
      regAfter mixed 0x6540000000000000 .E1 = some { value := 4, width := 4, poly := 9 } := by decide
theorem test_mul_incompatible : answerTo mixed 0x6C40000000000000 = some 0x3000000000000000 := by decide

/-- 95_test_vectors.md P2, command 7: 9 / 3 = 7. -/
theorem test_div : answerTo (gf16 9 3) 0x7840000000000000 = some 0x0100000000000007 := by decide
theorem test_div_by_zero : answerTo (gf16 9 0) 0x7840000000000000 = some 0x4000000000000000 := by decide

/-- 96_test_vectors_inv_gcd.md 4.1: in place. -/
theorem test_inv :
    answerTo (gf16 3 0) 0x8000000000000000 = some 0x010000000000000E ∧
      regAfter (gf16 3 0) 0x8000000000000000 .E0 = some { value := 14, width := 4, poly := 3 } := by decide
theorem test_inv_of_zero :
    answerTo (gf16 3 0) 0x8900000000000000 = some 0x4000000000000000 ∧
      regAfter (gf16 3 0) 0x8900000000000000 .E2 = none := by decide

/-- 96_test_vectors_inv_gcd.md 4.3: gcd(6, 4) = 2, and a zero operand is legal. -/
theorem test_gcd : answerTo (gf16 6 4) 0x9840000000000000 = some 0x0100000000000002 := by decide
theorem test_gcd_of_zero : answerTo (gf16 6 0) 0x9040000000000000 = some 0x0100000000000006 := by decide

/-- 41_field.md R114, R115; 95_test_vectors.md 2.1: the element's own width and modulus. -/
theorem test_rdv : answerTo mixed 0xA000000000000000 = some 0x0100000000000009 := by decide
theorem test_rdv_empty : answerTo mixed 0xA300000000000000 = some 0x9000000000000000 := by decide
theorem test_rdp : answerTo widest 0xB000000000000000 = some 0x080000010000008D := by decide
theorem test_rdp_empty : answerTo mixed 0xB300000000000000 = some 0x9000000000000000 := by decide

/-- 96_test_vectors_inv_gcd.md 4.4: an illegal word answers 7 and changes nothing. -/
theorem test_illegal_command :
    answerTo (gf16 9 2) 0x3000000400000063 = some 0x7000000000000000 ∧
      regAfter (gf16 9 2) 0x3000000400000063 .E0 = some { value := 9, width := 4, poly := 3 } := by decide

/-- 96_test_vectors_inv_gcd.md 4.5: `EmptyRegister` before `DivisionByZero`; `NoField` before the range. -/
theorem test_priority :
    answerTo (gf16 0 5) 0x7600000000000000 = some 0x9000000000000000 ∧
      answerTo State.reset 0x3000000000000063 = some 0x8000000000000000 := by decide

/-! ### The channels (R215, R218, R225) -/

/-- A command in progress, and the host asserting `rst`. -/
def resetMidCommand : State :=
  { gf16 9 2 with
    command := some 0x4040000000000000
    inputs := [{ rst := true, cmd := none, rspReady := false }] }

theorem test_reset_drops_command :
    (match step resetMidCommand with
      | .next t => some t
      | .fault _ => none
      | .refused _ => none) = some State.reset := by decide

/-- A response pending, the host offering the next command and ready for the response. -/
def responsePending : State :=
  { gf16 9 2 with
    response := some 0x0100000000000009
    inputs := [{ rst := false, cmd := some 0x2000000000000000, rspReady := true }] }

/-- The response is handed over and the command is not taken: `cmd_ready` is 0 at that edge. -/
theorem test_response_handed_over :
    (match step responsePending with
      | .next t => some (t.command, t.response, t.received)
      | .fault _ => none
      | .refused _ => none) = some (none, none, [0x0100000000000009]) := by decide

/-! ### Witnesses: the hypotheses of each statement are met together -/

/-- The invariant of a state with a field, idle channels and nothing received. -/
theorem inv_of_idle {s : State} {f : FieldConfig} (hf : s.field = some f) (hfit : f.Fits)
    (h0 : ∀ e, s.e0 = some e → e.Fits) (h1 : ∀ e, s.e1 = some e → e.Fits)
    (h2 : ∀ e, s.e2 = some e → e.Fits) (h3 : ∀ e, s.e3 = some e → e.Fits)
    (hc : s.command = none) (hr : s.response = none) (hv : s.received = []) : s.Inv where
  field := fun g hg => by rw [hf] at hg; cases hg; exact hfit
  regs := fun r e he => by
    cases r
    · exact h0 e he
    · exact h1 e he
    · exact h2 e he
    · exact h3 e he
  noField := fun h => by rw [hf] at h; cases h
  oneOutstanding := .inl hc
  response := fun r h => by rw [hr] at h; cases h
  received := fun r h => by rw [hv] at h; cases h

theorem witness_inv_gf16 : (gf16 9 0).Inv :=
  inv_of_idle rfl (by decide) (by rintro _ ⟨⟩; decide) (by rintro _ ⟨⟩; decide) (by rintro _ ⟨⟩)
    (by rintro _ ⟨⟩) rfl rfl rfl

theorem witness_inv_mixed : mixed.Inv :=
  inv_of_idle rfl (by decide) (by rintro _ ⟨⟩; decide) (by rintro _ ⟨⟩; decide)
    (by rintro _ ⟨⟩; decide) (by rintro _ ⟨⟩) rfl rfl rfl

theorem witness_inv_widest : widest.Inv :=
  inv_of_idle rfl (by decide) (by rintro _ ⟨⟩; decide) (by rintro _ ⟨⟩; decide) (by rintro _ ⟨⟩)
    (by rintro _ ⟨⟩) rfl rfl rfl

/-- ResetEdgeDropsAll, OnlyResetEmpties: a reset with a command in progress. -/
theorem witness_reset_edge :
    (nextInput resetMidCommand).rst = true ∧ (nextInput resetMidCommand).rspReady = false ∧
      resetMidCommand.command ≠ none := by decide

/-- OnlyResetEmpties, StepKeepsInvariant, TableIsFunctionOfField: an edge without reset at a state with
a field and an element. -/
theorem witness_step_without_reset :
    (∃ t, step (gf16 9 0) = .next t) ∧ (nextInput (gf16 9 0)).rst = false ∧ (gf16 9 0).field ≠ none ∧
      (gf16 9 0).reg .E0 ≠ none ∧ (gf16 9 0).command = none :=
  ⟨⟨_, rfl⟩, by decide⟩

/-- TableIsFunctionOfField with a command in progress that is not CONFIG. -/
theorem witness_table_command :
    resetMidCommand.command = some 0x4040000000000000 ∧
      decoded 0x4040000000000000 = some (.add .E0 .E0 .E1) := by decide

/-- OnlyConfigSucceedsAfterReset: both codes. -/
theorem witness_after_reset :
    State.reset.field = none ∧ State.reset.reg .E0 = none ∧ State.reset.reg .E3 = none ∧
      isConfig .count = false ∧ readsField .count = true ∧ isConfig (.rdv .E0) = false ∧
      readsField (.rdv .E0) = false := by decide

/-- DecodeOfEncode, AssemblerReadsWhatItWrites: the greatest operands. -/
theorem witness_well_formed :
    (Instr.config 63 (2 ^ 33 - 1)).WellFormed ∧ (Instr.elem .E3 (2 ^ 33 - 1)).WellFormed ∧
      (Instr.config 0 0).WellFormed := by decide

/-- EncodeOfDecode, LegalWordsMatchMasks: a word with every operand field at its greatest value. -/
theorem witness_legal_word :
    decoded 0x103F0001FFFFFFFF = some (.config 63 (2 ^ 33 - 1)) ∧
      (0x103F0001FFFFFFFF : CmdWord) &&& rowMask (.config 0 0) = rowMatch (.config 0 0) := by decide

/-- LegalWordsMatchMasks: a word that fits no row. -/
theorem witness_word_of_no_row : ∀ i : Instr, (0 : CmdWord) &&& rowMask i ≠ rowMatch i := by
  intro i
  cases i <;> simp [rowMask, rowMatch]

/-- StepRunsCommand: a legal and an illegal command in progress. -/
theorem witness_step_runs :
    (State.reset.withCommand 0x2000000000000000).command = some 0x2000000000000000 ∧
      (State.reset.withCommand 0x2000000000000000).response = none ∧
      (nextInput (State.reset.withCommand 0x2000000000000000)).rst = false ∧
      decoded 0x2000000000000000 = some .count ∧ decoded 0 = none := by decide

/-- The host offering COUNT to an idle core. -/
def offered : State :=
  { State.reset with inputs := [{ rst := false, cmd := some 0x2000000000000000, rspReady := false }] }

/-- IdleCoreTakesCommand and IdleCoreKeepsState. -/
theorem witness_idle :
    cmdReady offered = true ∧ (nextInput offered).rst = false ∧
      (nextInput offered).cmd = some 0x2000000000000000 ∧ cmdReady State.reset = true ∧
      (nextInput State.reset).cmd = none ∧ (nextInput State.reset).rst = false := by decide

/-- ResponseHeldUntilTaken: the host ready, and (with no input) not ready. -/
theorem witness_response_pending :
    responsePending.response = some 0x0100000000000009 ∧ (nextInput responsePending).rst = false ∧
      (nextInput responsePending).rspReady = true ∧
      (nextInput { responsePending with inputs := [] }).rspReady = false := by decide

/-- The host offering COUNT at two edges while a response is pending. -/
def offerHeld : State :=
  { responsePending with
    inputs := [{ rst := false, cmd := some 0x2000000000000000, rspReady := true },
      { rst := false, cmd := some 0x2000000000000000, rspReady := false }] }

/-- OfferStandsUntilTaken: its first clause, and its second with a core that is ready after one edge. -/
theorem witness_offer_held :
    (nextInput offerHeld).cmd = some 0x2000000000000000 ∧
      (∀ k v, k < 1 → Host.Core.run Sys2Proof.core k offerHeld = .next v →
        cmdReady v = false ∧ HostHolds v ∧ (nextInput v).rst = false) ∧
      ∃ u, step offerHeld = .next u ∧ Host.Core.run Sys2Proof.core 1 offerHeld = .next u ∧
        cmdReady u = true ∧ (nextInput u).rst = false := by
  refine ⟨by decide, fun k v hk hv => ?_, _, rfl, rfl, by decide, by decide⟩
  obtain rfl : k = 0 := by omega
  cases hv
  exact ⟨by decide, fun w h _ _ => by cases h; rfl, by decide⟩

/-- OfferStandsUntilTaken: an idle core, ready at the very first edge (no edge before it). -/
theorem witness_offer_at_once :
    (nextInput offered).cmd = some 0x2000000000000000 ∧
      Host.Core.run Sys2Proof.core 0 offered = .next offered ∧ cmdReady offered = true ∧
      (nextInput offered).rst = false :=
  ⟨by decide, rfl, by decide, by decide⟩

/-- PortRunIsCommandRun, RunAnswersEachCommand: a run of two words on an idle core. -/
theorem witness_run :
    (State.reset.command = none ∧ State.reset.response = none) ∧
      { State.reset with inputs := driveCommands [0x1004000000000013, 0] }.inputs =
        driveCommands [0x1004000000000013, 0] ++ [] := by decide

/-- CommandFrame and the statements of the errors: a command that completes. -/
theorem witness_exec_next : ∃ t, exec (.add .E2 .E0 .E1) (gf16 9 0) = .next t := ⟨_, rfl⟩

/-- CommandReadsOnlySources: two states that agree on the sources only. -/
theorem witness_reads_only_sources :
    (∀ r, r ∈ sources (.add .E2 .E0 .E0) → (gf16 9 0).reg r = mixed.reg r) ∧
      readsField (.add .E2 .E0 .E0) = false ∧ (gf16 9 0).field ≠ mixed.field ∧
      (∃ t, exec (.add .E2 .E0 .E0) (gf16 9 0) = .next t) ∧
      ∃ t, exec (.add .E2 .E0 .E0) mixed = .next t :=
  ⟨by intro r h; simp [sources] at h; subst h; rfl, by decide, by decide, ⟨_, rfl⟩, ⟨_, rfl⟩⟩

/-- ErrorKeepsState, UnassignedCodesNeverAppear, IllegalCommandExactly: a word answered with an error. -/
theorem witness_error_word :
    answerTo (gf16 9 0) 0 = some 0x7000000000000000 ∧ statusOf 0x7000000000000000 ≠ 0 := by decide

/-- ConfigStoresField: the degrees at the ends of both ranges. -/
theorem witness_config_degrees :
    (1 ≤ 1 ∧ 1 ≤ 32) ∧ (1 ≤ 32 ∧ 32 ≤ 32) ∧ 32 < 33 ∧
      answerTo State.reset 0x102000010000008D = some 0x080000010000008D := by decide

/-- CountAnswersElements, ElemWritesElement: a field, the last index in range and the first beyond; no
field. -/
theorem witness_elem :
    widest.field = some { m := 32, p := 0x8D } ∧ 0xFFFFFFFF < 2 ^ (32#6).toNat ∧
      2 ^ (32#6).toNat ≤ 0x100000000 ∧ State.reset.field = none := by decide

/-- TableIsFunctionOfField: the last entry, and the first index beyond the table. -/
theorem witness_table :
    (gf16 9 0).field = some { m := 4, p := 3 } ∧ 15 < 2 ^ (4#6).toNat ∧ 2 ^ (4#6).toNat ≤ 16 ∧
      State.reset.field = none := by decide

/-- OneFieldStaysCompatible: two elements of the present field, and an addition. -/
theorem witness_one_field :
    (gf16 9 0).OfOneField ∧ isConfig (.add .E2 .E0 .E1) = false ∧
      ∃ t, exec (.add .E2 .E0 .E1) (gf16 9 0) = .next t := by
  refine ⟨fun r e he => ⟨_, rfl, ?_⟩, by decide, _, rfl⟩
  cases r <;> cases he <;> exact ⟨rfl, rfl⟩

/-- ResponseCarriesBitString: RDV of an element of width 32, and a sum written. -/
theorem witness_bit_string :
    (∃ t r, exec (.rdv .E0) widest = .next t ∧ t.response = some r ∧ statusOf r = 0 ∧
        t.reg .E0 ≠ none) ∧
      ∃ t r, exec (.add .E2 .E0 .E1) widest = .next t ∧ t.response = some r ∧ statusOf r = 0 ∧
        destination (.add .E2 .E0 .E1) = some .E2 ∧ t.reg .E2 ≠ none :=
  ⟨⟨_, _, rfl, rfl, by decide, by decide⟩, _, _, rfl, rfl, by decide, by decide, by decide⟩

/-- RdvAnswersValue, RdpAnswersModulus: a register that holds an element and one that is empty. -/
theorem witness_read :
    widest.reg .E0 = some { value := 0xFFFFFFFF, width := 32, poly := 0x8D } ∧ widest.reg .E3 = none := by
  decide

/-- AddWritesXor, SubWritesXor: equal widths with unequal polynomials, unequal widths, an empty source. -/
theorem witness_add :
    (∃ a b, mixed.reg .E0 = some a ∧ mixed.reg .E1 = some b ∧ a.width = b.width ∧ a.poly ≠ b.poly) ∧
      (∃ a b, mixed.reg .E0 = some a ∧ mixed.reg .E2 = some b ∧ a.width ≠ b.width) ∧
      mixed.reg .E3 = none :=
  ⟨⟨_, _, rfl, rfl, by decide⟩, ⟨_, _, rfl, rfl, by decide⟩, rfl⟩

/-- MulWritesProduct, DivWritesQuotient, GcdWritesDivisor: one field with a non-zero and with a zero second
operand, two fields of one width, an empty source. -/
theorem witness_same_field :
    (∃ a b, widest.reg .E0 = some a ∧ widest.reg .E1 = some b ∧ a.width = b.width ∧ a.poly = b.poly ∧
        b.value ≠ 0) ∧
      (∃ a b, (gf16 9 0).reg .E0 = some a ∧ (gf16 9 0).reg .E1 = some b ∧ a.width = b.width ∧
        a.poly = b.poly ∧ b.value = 0) ∧
      (∃ a b, mixed.reg .E0 = some a ∧ mixed.reg .E1 = some b ∧
        ¬ (a.width = b.width ∧ a.poly = b.poly)) ∧
      mixed.reg .E3 = none :=
  ⟨⟨_, _, rfl, rfl, by decide⟩, ⟨_, _, rfl, rfl, by decide⟩, ⟨_, _, rfl, rfl, by decide⟩, rfl⟩

/-- `E0 = (2, 4, 5)` and `E1 = (7, 4, 5)`: the modulus 21 is the square of 7, so E1 has no inverse
(44_div_inv.md R155). -/
def square : State :=
  { State.reset with
    field := some { m := 4, p := 5 }
    e0 := some { value := 2, width := 4, poly := 5 }
    e1 := some { value := 7, width := 4, poly := 5 } }

/-- NoInverseIsNoError: all its hypotheses. -/
theorem witness_no_inverse :
    square.Inv ∧ (∃ a b, square.reg .E0 = some a ∧ square.reg .E1 = some b ∧ a.width = b.width ∧
      a.poly = b.poly ∧ b.value ≠ 0 ∧ bgcd b.value.toNat (2 ^ b.width.toNat + b.poly.toNat) ≠ 1) :=
  ⟨inv_of_idle rfl (by decide) (by rintro _ ⟨⟩; decide) (by rintro _ ⟨⟩; decide) (by rintro _ ⟨⟩)
      (by rintro _ ⟨⟩) rfl rfl rfl,
    ⟨_, _, rfl, rfl, by decide, by decide, by decide, by decide⟩⟩

/-- InvWritesInverse, DivWritesQuotient: a gcd of 1 with the modulus 19. -/
theorem witness_coprime : bgcd 9 (2 ^ 4 + 3) = 1 := by decide

/-- TrailingZerosExactly. -/
theorem witness_trailing_zeros : 12 ≠ 0 ∧ 0x80000000 ≠ 0 := by decide

/-- InvWritesInverse: a non-zero and a zero operand, an empty source. -/
theorem witness_inv :
    (∃ b, (gf16 9 0).reg .E0 = some b ∧ b.value ≠ 0) ∧
      (∃ b, (gf16 9 0).reg .E1 = some b ∧ b.value = 0) ∧ (gf16 9 0).reg .E2 = none :=
  ⟨⟨_, rfl, by decide⟩, ⟨_, rfl, by decide⟩, rfl⟩

/-- A factorisation of a polynomial of degree m has factors of at most m + 1 bits. -/
theorem factor_lt {f g n : Nat} (h : clmul f g < 2 ^ n) (h0 : clmul f g ≠ 0) : f < 2 ^ n ∧ g < 2 ^ n := by
  have hf : f ≠ 0 := fun e => h0 (by rw [e, clmul_zero_left])
  have hg : g ≠ 0 := fun e => h0 (by rw [e, clmul_zero_right])
  have hd := (deg_clmul hf hg).2
  have := deg_lt_of_lt h0 h
  exact ⟨lt_of_deg_lt (.inr (by omega)), lt_of_deg_lt (.inr (by omega))⟩

/-- NoZeroDivisorsInField, InverseLawInField, DivisionUndoesMultiplication: `x^2 + x + 1` is
irreducible. -/
theorem witness_irreducible : Irreducible 2 3 := by
  intro f g h
  have e : clmul f g = 7 := h
  obtain ⟨hf, hg⟩ := factor_lt (n := 3) (by rw [e]; decide) (by rw [e]; decide)
  have all : ∀ f, f < 2 ^ 3 → ∀ g, g < 2 ^ 3 → clmul f g = 7 → ¬ (1 ≤ deg f ∧ deg f < 2) := by decide
  exact all f hf g hg e

/-- `E0 = (2, 2, 3)` and `E1 = (3, 2, 3)` in GF(2^2), P = 7. -/
def gf4 : State :=
  { State.reset with
    field := some { m := 2, p := 3 }
    e0 := some { value := 2, width := 2, poly := 3 }
    e1 := some { value := 3, width := 2, poly := 3 } }

/-- DivisionUndoesMultiplication: all its hypotheses. -/
theorem witness_division :
    gf4.Inv ∧ (∃ a b, gf4.reg .E0 = some a ∧ gf4.reg .E1 = some b ∧ a.width = b.width ∧
      a.poly = b.poly ∧ Irreducible a.width.toNat a.poly.toNat ∧ b.value ≠ 0) ∧ Reg.E0 ≠ Reg.E1 :=
  ⟨inv_of_idle rfl (by decide) (by rintro _ ⟨⟩; decide) (by rintro _ ⟨⟩; decide) (by rintro _ ⟨⟩)
      (by rintro _ ⟨⟩) rfl rfl rfl,
    ⟨_, _, rfl, rfl, by decide, by decide, witness_irreducible, by decide⟩, by decide⟩

/-- MulcoreIsReducedProduct, MulcoreRingLaws, BezoutTableShape, InvcoreTimesOperandIsGcd: the greatest and
the least width. -/
theorem witness_operands :
    (1 ≤ 32 ∧ 0xFFFFFFFF < 2 ^ 32 ∧ 0x8D < 2 ^ 32 ∧ 0xFFFFFFFF ≠ 0) ∧
      (1 ≤ 1 ∧ 1 < 2 ^ 1 ∧ 0 < 2 ^ 1 ∧ 1 ≠ 0) := by decide

/-- BezoutRowsIdentity: a row of a table. -/
theorem witness_row : { index := 3, r := 1, q := some 14, s := 14, t := 1 } ∈ xeuclid 3 19 := by decide

/-- The errors, each raised at the edge of its range: a degree of 33, the first index out of range, unequal
polynomials, a zero divisor, no field, an empty source. -/
theorem witness_errors :
    answerTo State.reset 0x1021000000000013 = some (rspNumber 1 0 0) ∧
      answerTo (gf16 9 0) 0x3000000000000010 = some (rspNumber 2 0 0) ∧
      answerTo mixed 0x6C40000000000000 = some (rspNumber 3 0 0) ∧
      answerTo (gf16 9 0) 0x7840000000000000 = some (rspNumber 4 0 0) ∧
      answerTo State.reset 0x2000000000000000 = some (rspNumber 8 0 0) ∧
      answerTo mixed 0xA300000000000000 = some (rspNumber 9 0 0) := by decide

end Sys2Proof.Tests
end

section
/-! The end of a command, said of the shared operations (10_state.md R24; 60_exceptions.md R190), what the
decoder rejects, and from them the statements of 00_scope.md. -/

namespace Sys2Proof.Machine

/-! ### The end of a command -/

/-- A command that has touched nothing of the host ends with whatever response is given. -/
theorem ends_answer {s u : State} (hi : u.inputs = s.inputs) (hr : u.received = s.received)
    (r : RspWord) : Ends s (answer r u) r := ⟨rfl, rfl, hi, hr⟩

theorem ends_respond (s : State) (width : BitVec 6) (value : Nat) :
    Ends s (respond width value s) (okWord width value) := ends_answer rfl rfl _

theorem ends_raise (s : State) (k : ErrorKind) : Ends s (raise k s) (errorWord k) :=
  ends_answer rfl rfl _

theorem ends_commit (s : State) (rd : Reg) (result : Except ErrorKind Element) :
    ∃ r, Ends s (commit rd result s) r := by
  rcases commit_cases rd result s with ⟨e, -, h⟩ | ⟨k, -, h⟩ <;> rw [h]
  · exact ⟨_, ends_answer (setReg_inputs s rd e) (setReg_received s rd e) _⟩
  · exact ⟨_, ends_raise s k⟩

/-- An error writes no state and answers its code (R66, R190). -/
theorem raises_raise (s : State) (k : ErrorKind) : Raises s (raise k s) (errorCode k).toNat :=
  ⟨⟨raise_field s k, raise_reg s k⟩, errorWord_eq_rspNumber k ▸ ends_raise s k⟩

/-! ### The commands that do not end with `commit`, each branch as an equation -/

theorem exec_config_invalid {m : Nat} (h : m = 0 ∨ m > mmax) (poly : Nat) (s : State) :
    exec (.config m poly) s = .next (raise .invalidDegree s) := if_pos h

theorem exec_config_valid {m : Nat} (h : ¬ (m = 0 ∨ m > mmax)) (poly : Nat) (s : State) :
    exec (.config m poly) s =
      .next (respond (makeField m poly).m (makeField m poly).modulus (s.setField (makeField m poly))) :=
  if_neg h

theorem exec_count_error {s : State} {k : ErrorKind} (h : readField s = .error k) :
    exec .count s = .next (raise k s) := by simp [exec, execCount, h]

theorem exec_count_ok {s : State} {f : FieldConfig} (h : readField s = .ok f) :
    exec .count s = .next (respond f.m (2 ^ f.m.toNat) s) := by simp [exec, execCount, h]

theorem exec_rdv_error {s : State} {rs1 : Reg} {k : ErrorKind} (h : readSource rs1 s = .error k) :
    exec (.rdv rs1) s = .next (raise k s) := by simp [exec, execRdv, h]

theorem exec_rdv_ok {s : State} {rs1 : Reg} {e : Element} (h : readSource rs1 s = .ok e) :
    exec (.rdv rs1) s = .next (respond e.width e.value.toNat s) := by simp [exec, execRdv, h]

theorem exec_rdp_error {s : State} {rs1 : Reg} {k : ErrorKind} (h : readSource rs1 s = .error k) :
    exec (.rdp rs1) s = .next (raise k s) := by simp [exec, execRdp, h]

theorem exec_rdp_ok {s : State} {rs1 : Reg} {e : Element} (h : readSource rs1 s = .ok e) :
    exec (.rdp rs1) s = .next (respond e.width e.modulus s) := by simp [exec, execRdp, h]

/-! ### Every command answers -/

/-- The outcome is a next state in which the command has ended with some response. -/
def Answers (s : State) (out : Result) : Prop := ∃ t r, out = .next t ∧ Ends s t r

theorem answers_raise (s : State) (k : ErrorKind) : Answers s (.next (raise k s)) :=
  ⟨_, _, rfl, ends_raise s k⟩

theorem answers_respond (s : State) (width : BitVec 6) (value : Nat) :
    Answers s (.next (respond width value s)) := ⟨_, _, rfl, ends_respond s width value⟩

theorem answers_commit (s : State) (rd : Reg) (result : Except ErrorKind Element) :
    Answers s (.next (commit rd result s)) :=
  have ⟨r, h⟩ := ends_commit s rd result
  ⟨_, r, rfl, h⟩

theorem answers_config (s : State) (m poly : Nat) : Answers s (exec (.config m poly) s) := by
  by_cases h : m = 0 ∨ m > mmax
  · exact exec_config_invalid h poly s ▸ answers_raise s _
  · exact ⟨_, _, exec_config_valid h poly s, ends_answer (setField_inputs s _) (setField_received s _) _⟩

theorem answers_count (s : State) : Answers s (exec .count s) := by
  cases h : readField s with
  | error k => exact exec_count_error h ▸ answers_raise s k
  | ok f => exact exec_count_ok h ▸ answers_respond s _ _

theorem answers_rdv (s : State) (rs1 : Reg) : Answers s (exec (.rdv rs1) s) := by
  cases h : readSource rs1 s with
  | error k => exact exec_rdv_error h ▸ answers_raise s k
  | ok e => exact exec_rdv_ok h ▸ answers_respond s _ _

theorem answers_rdp (s : State) (rs1 : Reg) : Answers s (exec (.rdp rs1) s) := by
  cases h : readSource rs1 s with
  | error k => exact exec_rdp_error h ▸ answers_raise s k
  | ok e => exact exec_rdp_ok h ▸ answers_respond s _ _

/-- Settles O20: seven commands end with `commit`, whatever they computed; CONFIG, COUNT, RDV and RDP
respond or raise by their own branches. -/
theorem everyCommandAnswers : Obligations.EveryCommandAnswers := fun i s =>
  match i with
  | .config m poly => answers_config s m poly
  | .count => answers_count s
  | .elem rd index => answers_commit s rd (elemResult index s)
  | .add rd rs1 rs2 => answers_commit s rd (xorResult rs1 rs2 s)
  | .sub rd rs1 rs2 => answers_commit s rd (xorResult rs1 rs2 s)
  | .mul rd rs1 rs2 => answers_commit s rd (mulResult rs1 rs2 s)
  | .div rd rs1 rs2 => answers_commit s rd (divResult rs1 rs2 s)
  | .inv rd rs1 => answers_commit s rd (invResult rs1 s)
  | .gcd rd rs1 rs2 => answers_commit s rd (gcdResult rs1 rs2 s)
  | .rdv rs1 => answers_rdv s rs1
  | .rdp rs1 => answers_rdp s rs1

/-! ### A step runs the command in progress -/

/-- `IllegalCommand` is the decoder's only error (30_encoding.md R74; 60_exceptions.md R193). -/
theorem decode_error {w : CmdWord} {k : ErrorKind} (h : decode w = .error k) :
    k = .illegalCommand := by
  have of_illegal (e : (.error .illegalCommand : Except ErrorKind Instr) = .error k) :
      k = .illegalCommand := (Except.error.inj e).symm
  simp only [decode] at h
  split at h
  · exact of_illegal h
  · split at h
    case h_12 => exact of_illegal h
    all_goals exact (legalIf_error.1 h).2

/-- The step of a core with a command in progress, no response pending and no reset (70_reset_and_hazards.md
R225). -/
theorem step_command {s : State} {w : CmdWord} (hc : s.command = some w) (hr : s.response = none)
    (hrst : (nextInput s).rst = false) : step s = runWord w (dropInput s) :=
  atEdge_command (s := dropInput s) hrst hr hc

/-- Settles O11: the step runs the word, and the word its command or the one error of the decoder. -/
theorem stepRunsCommand : Obligations.StepRunsCommand := by
  intro s w hc hr hrst
  rw [step_command hc hr hrst]
  refine ⟨fun i hi => runWord_ok hi _, fun k hk => ?_⟩
  obtain rfl := decode_error hk
  exact ⟨_, runWord_error hk _, raises_raise (dropInput s) .illegalCommand⟩

end Sys2Proof.Machine
end

section
/-! SUPPORT. Every command in two parts: what it makes of its operands, an error or an effect, and the writing
of that to the state (10_state.md R24). `exec_eq` ties the two to the model. -/

namespace Sys2Proof.Machine

/-! ### The effect of a command -/

/-- What a successful command does: CONFIG writes `F`, COUNT and the two reads only answer, the others write
an element (10_state.md R24). -/
inductive Effect where
  | setField (f : FieldConfig)
  | answer (width : BitVec 6) (value : Nat)
  | write (rd : Reg) (e : Element)

/-- What a command makes of its operands. -/
def effect : Instr → State → Except ErrorKind Effect
  | .config m poly, _ =>
    if m = 0 ∨ m > mmax then .error .invalidDegree else .ok (.setField (makeField m poly))
  | .count, s => (readField s).map fun f => .answer f.m (2 ^ f.m.toNat)
  | .elem rd index, s => (elemResult index s).map (.write rd)
  | .add rd rs1 rs2, s => (xorResult rs1 rs2 s).map (.write rd)
  | .sub rd rs1 rs2, s => (xorResult rs1 rs2 s).map (.write rd)
  | .mul rd rs1 rs2, s => (mulResult rs1 rs2 s).map (.write rd)
  | .div rd rs1 rs2, s => (divResult rs1 rs2 s).map (.write rd)
  | .inv rd rs1, s => (invResult rs1 s).map (.write rd)
  | .gcd rd rs1 rs2, s => (gcdResult rs1 rs2 s).map (.write rd)
  | .rdv rs1, s => (readSource rs1 s).map fun e => .answer e.width e.value.toNat
  | .rdp rs1, s => (readSource rs1 s).map fun e => .answer e.width e.modulus

/-- What the end of a command writes: the error's response alone (60_exceptions.md R190), or the effect and
its response. -/
def finish (r : Except ErrorKind Effect) (s : State) : State :=
  match r with
  | .error k => raise k s
  | .ok (.setField f) => respond f.m f.modulus (s.setField f)
  | .ok (.answer width value) => respond width value s
  | .ok (.write rd e) => respond e.width e.value.toNat (s.setReg rd e)

@[simp] theorem finish_error (k : ErrorKind) (s : State) : finish (.error k) s = raise k s := rfl

@[simp] theorem finish_setField (f : FieldConfig) (s : State) :
    finish (.ok (.setField f)) s = respond f.m f.modulus (s.setField f) := rfl

@[simp] theorem finish_answer (width : BitVec 6) (value : Nat) (s : State) :
    finish (.ok (.answer width value)) s = respond width value s := rfl

@[simp] theorem finish_write (rd : Reg) (e : Element) (s : State) :
    finish (.ok (.write rd e)) s = respond e.width e.value.toNat (s.setReg rd e) := rfl

/-- To write the element of a result is to commit the result. -/
theorem finish_map_write (rd : Reg) (result : Except ErrorKind Element) (s : State) :
    finish (result.map (.write rd)) s = commit rd result s := by
  cases result <;> rfl

/-- Every command is the finish of its effect. -/
theorem exec_eq (i : Instr) (s : State) : exec i s = .next (finish (effect i s) s) := by
  cases i with
  | config m poly =>
    by_cases h : m = 0 ∨ m > mmax
    · rw [exec_config_invalid h, effect, if_pos h, finish_error]
    · rw [exec_config_valid h, effect, if_neg h, finish_setField]
  | count =>
    cases h : readField s with
    | error k => rw [exec_count_error h, effect, h]; rfl
    | ok f => rw [exec_count_ok h, effect, h]; rfl
  | rdv rs1 =>
    cases h : readSource rs1 s with
    | error k => rw [exec_rdv_error h, effect, h]; rfl
    | ok e => rw [exec_rdv_ok h, effect, h]; rfl
  | rdp rs1 =>
    cases h : readSource rs1 s with
    | error k => rw [exec_rdp_error h, effect, h]; rfl
    | ok e => rw [exec_rdp_ok h, effect, h]; rfl
  | _ => exact congrArg Host.Outcome.next (finish_map_write _ _ s).symm

theorem exec_next {i : Instr} {s t : State} : exec i s = .next t ↔ finish (effect i s) s = t := by
  rw [exec_eq, Host.Outcome.next.injEq]

/-! ### The results as operands read, then computed with -/

theorem elemResult_eq (index : Nat) (s : State) :
    elemResult index s = (readField s).bind fun f => elemRead f index := by
  rw [elemResult]; cases readField s <;> rfl

/-- The element ADD and SUB make of two operands (42_addsub.md R130). -/
def Element.sum (ab : Element × Element) : Element :=
  { ab.1 with value := ab.1.value ^^^ ab.2.value }

theorem xorResult_eq (rs1 rs2 : Reg) (s : State) :
    xorResult rs1 rs2 s = (readSameWidth rs1 rs2 s).map Element.sum := by
  rw [xorResult]; cases readSameWidth rs1 rs2 s <;> rfl

/-- The element MUL makes of two operands (43_mul.md R140). -/
def Element.product (ab : Element × Element) : Element :=
  ab.1.withValue (mulcore ab.1.value.toNat ab.2.value.toNat ab.1.width.toNat ab.1.poly.toNat)

theorem mulResult_eq (rs1 rs2 : Reg) (s : State) :
    mulResult rs1 rs2 s = (readSameField rs1 rs2 s).map Element.product := by
  rw [mulResult]; cases readSameField rs1 rs2 s <;> rfl

/-- The element GCD makes of two operands (45_gcd_bezout.md R165). -/
def Element.gcd (ab : Element × Element) : Element :=
  ab.1.withValue (bgcd ab.1.value.toNat ab.2.value.toNat)

theorem gcdResult_eq (rs1 rs2 : Reg) (s : State) :
    gcdResult rs1 rs2 s = (readSameField rs1 rs2 s).map Element.gcd := by
  rw [gcdResult]; cases readSameField rs1 rs2 s <;> rfl

/-- What DIV makes of two operands (44_div_inv.md R152). -/
def Element.quotient (ab : Element × Element) : Except ErrorKind Element :=
  if isZero ab.2 then .error .divisionByZero
  else .ok (ab.1.withValue
    (mulcore ab.1.value.toNat ab.2.inverseValue ab.1.width.toNat ab.1.poly.toNat))

theorem divResult_eq (rs1 rs2 : Reg) (s : State) :
    divResult rs1 rs2 s = (readSameField rs1 rs2 s).bind Element.quotient := by
  rw [divResult]; cases readSameField rs1 rs2 s <;> rfl

/-- What INV makes of its operand (44_div_inv.md R150). -/
def Element.inverse (b : Element) : Except ErrorKind Element :=
  if isZero b then .error .divisionByZero else .ok (b.withValue b.inverseValue)

theorem invResult_eq (rs1 : Reg) (s : State) :
    invResult rs1 s = (readSource rs1 s).bind Element.inverse := by
  rw [invResult]; cases readSource rs1 s <;> rfl

end Sys2Proof.Machine
end

section
/-! What a command changes and what it reads (10_state.md R24). -/

namespace Sys2Proof.Machine

/-! ### What a command changes -/

/-- The effect is one the command's row of R24 allows. -/
def Effect.Of (i : Instr) : Effect → Prop
  | .setField _ => isConfig i = true ∧ destination i = none
  | .answer _ _ => destination i = none
  | .write rd _ => destination i = some rd

theorem map_eq_ok {α β : Type} {f : α → β} {r : Except ErrorKind α} {b : β} :
    r.map f = .ok b ↔ ∃ a, r = .ok a ∧ f a = b := by
  cases r <;> simp [Except.map]

theorem effect_of {i : Instr} {s : State} {x : Effect} (h : effect i s = .ok x) : x.Of i := by
  have of_map {α : Type} {r : Except ErrorKind α} {f : α → Effect} (h : r.map f = .ok x)
      (hf : ∀ a, (f a).Of i) : x.Of i := by
    obtain ⟨a, -, rfl⟩ := map_eq_ok.1 h
    exact hf a
  cases i with
  | config m poly =>
    rw [effect] at h
    split at h
    · cases h
    · cases h; exact ⟨rfl, rfl⟩
  | _ => exact of_map h fun _ => rfl

@[simp] theorem finish_command (r : Except ErrorKind Effect) (s : State) :
    (finish r s).command = none := by
  rcases r with k | (f | ⟨w, v⟩ | ⟨rd, e⟩) <;> rfl

@[simp] theorem finish_inputs (r : Except ErrorKind Effect) (s : State) :
    (finish r s).inputs = s.inputs := by
  rcases r with k | (f | ⟨w, v⟩ | ⟨rd, e⟩) <;> simp

@[simp] theorem finish_received (r : Except ErrorKind Effect) (s : State) :
    (finish r s).received = s.received := by
  rcases r with k | (f | ⟨w, v⟩ | ⟨rd, e⟩) <;> simp

/-- No register but the destination is written. -/
theorem finish_effect_reg {i : Instr} {q : Reg} (hq : destination i ≠ some q) (s : State) :
    (finish (effect i s) s).reg q = s.reg q := by
  cases h : effect i s with
  | error k => simp
  | ok x =>
    have hx := effect_of h
    cases x with
    | setField f => simp
    | answer width value => simp
    | write rd e =>
      have hne : q ≠ rd := fun hqr => hq (hqr ▸ hx)
      simp [setReg_reg_of_ne s e hne]

/-- Only CONFIG writes `F`. -/
theorem finish_effect_field {i : Instr} (hi : isConfig i = false) (s : State) :
    (finish (effect i s) s).field = s.field := by
  cases h : effect i s with
  | error k => simp
  | ok x =>
    have hx := effect_of h
    cases x with
    | setField f => exact absurd (hi.symm.trans hx.1) (by decide)
    | answer width value => simp
    | write rd e => simp

/-- The element table is a function of `F` (20_memory.md R41). -/
theorem tableEntry_congr {s t : State} (h : t.field = s.field) (n : Nat) :
    t.tableEntry n = s.tableEntry n := by
  simp only [State.tableEntry, h]

/-- Settles O21: the frame of the end of a command, its effect being one of its row of R24. -/
theorem commandFrame : Obligations.CommandFrame := by
  intro i s t h
  obtain rfl := exec_next.1 h
  refine ⟨fun q hq => finish_effect_reg hq s, fun hi => ?_, finish_inputs _ s, finish_received _ s,
    finish_command _ s⟩
  have hf := finish_effect_field hi s
  exact ⟨hf, tableEntry_congr hf⟩

/-! ### What a command reads -/

theorem readField_congr {s s' : State} (h : s.field = s'.field) : readField s = readField s' := by
  simp only [readField, h]

theorem readSource_congr {r : Reg} {s s' : State} (h : s.reg r = s'.reg r) :
    readSource r s = readSource r s' := by
  simp only [readSource, h]

section
variable {rs1 rs2 : Reg} {s s' : State} (h : ∀ r, r ∈ [rs1, rs2] → s.reg r = s'.reg r)
include h

theorem readPair_congr : readPair rs1 rs2 s = readPair rs1 rs2 s' := by
  simp only [readPair, h rs1 (by simp), h rs2 (by simp)]

theorem readSameWidth_congr : readSameWidth rs1 rs2 s = readSameWidth rs1 rs2 s' := by
  simp only [readSameWidth, readPair_congr h]

theorem readSameField_congr : readSameField rs1 rs2 s = readSameField rs1 rs2 s' := by
  simp only [readSameField, readPair_congr h]

end

/-- The effect of a command is a function of its sources and, for COUNT and ELEM, of `F`. -/
theorem effect_congr {i : Instr} {s s' : State} (hr : ∀ r, r ∈ sources i → s.reg r = s'.reg r)
    (hf : readsField i = true → s.field = s'.field) : effect i s = effect i s' := by
  cases i with
  | config m poly => rfl
  | count => rw [effect, effect, readField_congr (hf rfl)]
  | elem rd index => rw [effect, effect, elemResult_eq, elemResult_eq, readField_congr (hf rfl)]
  | add rd rs1 rs2 => rw [effect, effect, xorResult_eq, xorResult_eq, readSameWidth_congr hr]
  | sub rd rs1 rs2 => rw [effect, effect, xorResult_eq, xorResult_eq, readSameWidth_congr hr]
  | mul rd rs1 rs2 => rw [effect, effect, mulResult_eq, mulResult_eq, readSameField_congr hr]
  | div rd rs1 rs2 => rw [effect, effect, divResult_eq, divResult_eq, readSameField_congr hr]
  | inv rd rs1 =>
    rw [effect, effect, invResult_eq, invResult_eq, readSource_congr (hr rs1 List.mem_cons_self)]
  | gcd rd rs1 rs2 => rw [effect, effect, gcdResult_eq, gcdResult_eq, readSameField_congr hr]
  | rdv rs1 => rw [effect, effect, readSource_congr (hr rs1 List.mem_cons_self)]
  | rdp rs1 => rw [effect, effect, readSource_congr (hr rs1 List.mem_cons_self)]

/-- The response is a function of the effect. -/
theorem finish_response_congr (r : Except ErrorKind Effect) (s s' : State) :
    (finish r s).response = (finish r s').response := by
  rcases r with k | (f | ⟨w, v⟩ | ⟨rd, e⟩) <;> rfl

theorem statusOf_errorWord_ne_zero (k : ErrorKind) : statusOf (errorWord k) ≠ 0 := by
  rw [errorWord, statusOf_responseWord]
  cases k <;> decide

/-- After a success the destination holds the element of the effect, whatever the state was. -/
theorem finish_effect_destination {i : Instr} {s : State} {w : RspWord} {rd : Reg}
    (hw : (finish (effect i s) s).response = some w) (hst : statusOf w = 0)
    (hd : destination i = some rd) :
    ∃ e, ∀ u, (finish (effect i s) u).reg rd = some e := by
  cases h : effect i s with
  | error k =>
    rw [h, finish_error, raise_response, Option.some.injEq] at hw
    exact absurd (hw ▸ hst) (statusOf_errorWord_ne_zero k)
  | ok x =>
    have hx := effect_of h
    cases x with
    | setField f => exact absurd (hd.symm.trans hx.2) (by simp)
    | answer width value => exact absurd (hd.symm.trans hx) (by simp)
    | write rd' e =>
      obtain rfl : rd' = rd := Option.some.inj (hx.symm.trans hd)
      exact ⟨e, fun u => by simp⟩

/-- Settles O22: two states that agree on what the command reads give it one effect, and the response and
the element written are functions of the effect. -/
theorem commandReadsOnlySources : Obligations.CommandReadsOnlySources := by
  intro i s s' t t' hr hf h h'
  obtain rfl := exec_next.1 h
  obtain rfl := exec_next.1 h'
  rw [← effect_congr hr hf]
  refine ⟨finish_response_congr _ s s', fun w rd hw hst hd => ?_⟩
  obtain ⟨e, he⟩ := finish_effect_destination hw hst hd
  rw [he s, he s']

end Sys2Proof.Machine
end

section
/-! The invariant (10_state.md R20, R22, R30): it holds at reset, every operation on the state keeps it, and
what a command makes of legal operands is legal, so every step keeps it. -/

namespace Sys2Proof.Machine

/-! ### Reset -/

@[simp] theorem reset_reg (q : Reg) : State.reset.reg q = none := by cases q <;> rfl

/-- Settles O1: R29's table, read off the reset state. -/
theorem resetLeavesNothing : Obligations.ResetLeavesNothing := ⟨rfl, reset_reg, rfl, rfl⟩

/-- A reset core meets the invariant when the host has received legal responses only. -/
theorem inv_resetCore {s : State} (h : ∀ r, r ∈ s.received → LegalResponse r) : (resetCore s).Inv where
  field f hf := by simp at hf
  regs r e he := by simp at he
  noField _ := resetCore_reg s
  oneOutstanding := .inl rfl
  response r hr := by simp at hr
  received := h

/-- Settles O2: the reset state is a reset core whose host has received nothing. -/
theorem resetMeetsInvariant : Obligations.ResetMeetsInvariant :=
  inv_resetCore (s := State.reset) fun _ hr => absurd hr List.not_mem_nil

/-! ### The operations on the state keep the invariant -/

/-- `F` and the registers as they were: the rest of the invariant is about the channels. -/
theorem State.Inv.of_sameCore {s t : State} (hs : s.Inv) (h : SameCore s t)
    (one : t.command = none ∨ t.response = none) (response : ∀ r, t.response = some r → LegalResponse r)
    (received : ∀ r, r ∈ t.received → LegalResponse r) : t.Inv where
  field f hf := hs.field f (h.1 ▸ hf)
  regs r e he := hs.regs r e (h.2 r ▸ he)
  noField hn r := (h.2 r).trans (hs.noField (h.1 ▸ hn) r)
  oneOutstanding := one
  response := response
  received := received

theorem State.Inv.answer {s : State} (hs : s.Inv) {r : RspWord} (hr : LegalResponse r) :
    (answer r s).Inv :=
  hs.of_sameCore ⟨answer_field s r, answer_reg s r⟩ (.inl rfl)
    (fun _ h => Option.some.inj h ▸ hr) hs.received

theorem State.Inv.dropInput {s : State} (hs : s.Inv) : (dropInput s).Inv :=
  hs.of_sameCore ⟨rfl, dropInput_reg s⟩ hs.oneOutstanding hs.response hs.received

theorem State.Inv.takeResponse {s : State} (hs : s.Inv) (p : PortInput) : (takeResponse p s).Inv := by
  cases hp : p.rspReady with
  | false => rw [takeResponse_hold hp]; exact hs
  | true =>
    cases hr : s.response with
    | none => simpa [Machine.takeResponse, hr] using hs
    | some r =>
      rw [takeResponse_ready hp hr]
      refine hs.of_sameCore ⟨rfl, fun q => by cases q <;> rfl⟩ (.inr rfl) (fun _ h => by cases h) ?_
      intro r' h
      rcases List.mem_append.1 h with h | h
      · exact hs.received r' h
      · exact List.mem_singleton.1 h ▸ hs.response r hr

theorem State.Inv.acceptCommand {s : State} (hs : s.Inv) (hr : s.response = none) (p : PortInput) :
    (acceptCommand p s).Inv :=
  hs.of_sameCore ⟨acceptCommand_field p s, acceptCommand_reg p s⟩
    (.inr ((acceptCommand_response p s).trans hr))
    (acceptCommand_response p s ▸ hs.response) (acceptCommand_received p s ▸ hs.received)

theorem State.Inv.setField {s : State} (hs : s.Inv) {f : FieldConfig} (hf : f.Fits) :
    (s.setField f).Inv where
  field g hg := Option.some.inj hg ▸ hf
  regs r e he := hs.regs r e (setField_reg s f r ▸ he)
  noField hn := by simp at hn
  oneOutstanding := hs.oneOutstanding
  response := hs.response
  received := hs.received

/-- The element may stand in a register of the state: it is legal (R30) and there is a field (R114). -/
structure State.MayHold (s : State) (e : Element) : Prop where
  hasField : s.field ≠ none
  fits : e.Fits

theorem State.Inv.mayHold {s : State} (hs : s.Inv) {r : Reg} {e : Element} (h : s.reg r = some e) :
    s.MayHold e :=
  ⟨fun hn => by simp [hs.noField hn r] at h, hs.regs r e h⟩

theorem State.Inv.setReg {s : State} (hs : s.Inv) {e : Element} (he : s.MayHold e) (rd : Reg) :
    (s.setReg rd e).Inv where
  field f hf := hs.field f (setReg_field s rd e ▸ hf)
  regs r e' h := by
    rw [setReg_reg] at h
    split at h
    · exact Option.some.inj h ▸ he.fits
    · exact hs.regs r e' h
  noField hn := absurd ((setReg_field s rd e).symm.trans hn) he.hasField
  oneOutstanding := by simpa using hs.oneOutstanding
  response := by simpa using hs.response
  received := by simpa using hs.received

/-! ### What the operations on elements give -/

/-- The computation gives a good value, or an error a command may raise: codes 5 and 6 are not among them
(60_exceptions.md R191, R192). -/
def Yields {α : Type} (good : α → Prop) : Except ErrorKind α → Prop
  | .ok a => good a
  | .error k => k ≠ .widthMismatch ∧ k ≠ .overflow

theorem Yields.bind {α β : Type} {P : α → Prop} {Q : β → Prop} {r : Except ErrorKind α}
    {f : α → Except ErrorKind β} (h : Yields P r) (hf : ∀ a, P a → Yields Q (f a)) :
    Yields Q (r.bind f) := by
  cases r with
  | error k => exact h
  | ok a => exact hf a h

theorem Yields.map {α β : Type} {P : α → Prop} {Q : β → Prop} {r : Except ErrorKind α} {f : α → β}
    (h : Yields P r) (hf : ∀ a, P a → Q (f a)) : Yields Q (r.map f) := by
  cases r with
  | error k => exact h
  | ok a => exact hf a h

/-- Any other value of the width may stand where the element may. -/
theorem State.MayHold.withValue {s : State} {e : Element} (he : s.MayHold e) {v : Nat}
    (hv : v < 2 ^ e.width.toNat) : s.MayHold (e.withValue v) := by
  obtain ⟨hf, lo, hi, -, hp⟩ := he
  refine ⟨hf, lo, hi, ?_, hp⟩
  calc (BitVec.ofNat 32 v).toNat = v % 2 ^ 32 := BitVec.toNat_ofNat v 32
    _ ≤ v := Nat.mod_le v _
    _ < 2 ^ e.width.toNat := hv

/-- Two operands a state holds, of one width: the case in which a command computes with them
(60_exceptions.md R188). -/
structure State.MayHoldPair (s : State) (ab : Element × Element) : Prop where
  fst : s.MayHold ab.1
  snd : s.MayHold ab.2
  width : ab.1.width = ab.2.width

section
variable {s : State} {ab : Element × Element} (h : s.MayHoldPair ab)
include h

/-- The second operand fits the width of the first. -/
theorem State.MayHoldPair.snd_lt : ab.2.value.toNat < 2 ^ ab.1.width.toNat :=
  have ⟨_, _, _, hv, _⟩ := h.snd
  h.width ▸ hv

theorem State.MayHoldPair.sum : s.MayHold (Element.sum ab) := by
  obtain ⟨hf, lo, hi, hv, hp⟩ := h.fst
  have hx := Nat.xor_lt_two_pow hv h.snd_lt
  rw [← BitVec.toNat_xor] at hx
  exact ⟨hf, lo, hi, hx, hp⟩

theorem State.MayHoldPair.product : s.MayHold (Element.product ab) :=
  have ⟨_, _, _, _, hp⟩ := h.fst
  h.fst.withValue (mulcore_lt _ h.snd_lt hp)

theorem State.MayHoldPair.gcd : s.MayHold (Element.gcd ab) :=
  have ⟨_, _, _, hv, _⟩ := h.fst
  h.fst.withValue (bgcd_lt hv h.snd_lt)

end

/-- The s that INVCORE returns needs no reduction (45_gcd_bezout.md R174). -/
theorem Element.Fits.inverseValue_lt {b : Element} (hb : b.Fits) :
    b.inverseValue < 2 ^ b.width.toNat :=
  have ⟨_, _, hv, hp⟩ := hb
  invcore_lt hv hp

theorem State.MayHoldPair.quotient {s : State} {ab : Element × Element} (h : s.MayHoldPair ab) :
    Yields s.MayHold (Element.quotient ab) := by
  unfold Element.quotient
  split
  · exact ⟨by decide, by decide⟩
  · have ⟨_, _, _, _, hp⟩ := h.fst
    have hb := h.snd.fits.inverseValue_lt
    rw [← h.width] at hb
    exact h.fst.withValue (mulcore_lt _ hb hp)

theorem State.MayHold.inverse {s : State} {b : Element} (h : s.MayHold b) :
    Yields s.MayHold (Element.inverse b) := by
  unfold Element.inverse
  split
  · exact ⟨by decide, by decide⟩
  · exact h.withValue h.fits.inverseValue_lt

/-! ### What a command makes of a state that meets the invariant -/

section
variable {s : State} (hs : s.Inv)
include hs

theorem State.Inv.readField : Yields (fun f => s.field = some f ∧ f.Fits) (readField s) := by
  cases h : Machine.readField s with
  | error k => obtain ⟨-, rfl⟩ := readField_error.1 h; exact ⟨by decide, by decide⟩
  | ok f => have hf := readField_ok.1 h; exact ⟨hf, hs.field f hf⟩

theorem State.Inv.readSource (r : Reg) : Yields s.MayHold (readSource r s) := by
  cases h : Machine.readSource r s with
  | error k => obtain ⟨-, rfl⟩ := readSource_error.1 h; exact ⟨by decide, by decide⟩
  | ok e => exact hs.mayHold (readSource_ok.1 h)

theorem State.Inv.readSameWidth (rs1 rs2 : Reg) :
    Yields s.MayHoldPair (readSameWidth rs1 rs2 s) := by
  cases h : Machine.readSameWidth rs1 rs2 s with
  | error k =>
    rcases readSameWidth_error.1 h with ⟨-, rfl⟩ | ⟨-, rfl⟩ <;> exact ⟨by decide, by decide⟩
  | ok ab =>
    obtain ⟨h1, h2, hw⟩ := readSameWidth_ok.1 h
    exact ⟨hs.mayHold h1, hs.mayHold h2, hw⟩

theorem State.Inv.readSameField (rs1 rs2 : Reg) :
    Yields s.MayHoldPair (readSameField rs1 rs2 s) := by
  cases h : Machine.readSameField rs1 rs2 s with
  | error k =>
    rcases readSameField_error.1 h with ⟨-, rfl⟩ | ⟨-, rfl⟩ <;> exact ⟨by decide, by decide⟩
  | ok ab =>
    obtain ⟨h1, h2, hw, -⟩ := readSameField_ok.1 h
    exact ⟨hs.mayHold h1, hs.mayHold h2, hw⟩

end

/-- An entry of the element table is an element of the field (20_memory.md R41, R42). -/
theorem elemRead_yields {s : State} {f : FieldConfig} (hf : s.field = some f) (hfit : f.Fits)
    (index : Nat) : Yields s.MayHold (elemRead f index) := by
  obtain ⟨lo, hi, hp⟩ := hfit
  cases h : elemRead f index with
  | error k => obtain ⟨-, rfl⟩ := elemRead_error.1 h; exact ⟨by decide, by decide⟩
  | ok e =>
    obtain ⟨hlt, rfl⟩ := elemRead_ok.1 h
    have zero : s.MayHold { value := 0, width := f.m, poly := f.p } :=
      ⟨by simp [hf], lo, hi, Nat.two_pow_pos _, hp⟩
    exact zero.withValue hlt

/-- The field CONFIG makes of an accepted degree is legal, whatever the polynomial (41_field.md R110). -/
theorem makeField_fits {m : Nat} (h : ¬ (m = 0 ∨ m > mmax)) (poly : Nat) : (makeField m poly).Fits := by
  have hm : 1 ≤ m ∧ m ≤ 32 := by unfold mmax at h; omega
  have e : (makeField m poly).m.toNat = m := by
    rw [makeField, BitVec.toNat_ofNat, Nat.mod_eq_of_lt (by omega)]
  refine ⟨by omega, by omega, ?_⟩
  calc (makeField m poly).p.toNat = trunc m poly % 2 ^ 32 := BitVec.toNat_ofNat _ 32
    _ ≤ trunc m poly := Nat.mod_le _ _
    _ < 2 ^ m := Nat.mod_lt _ (Nat.two_pow_pos m)
    _ = 2 ^ (makeField m poly).m.toNat := by rw [e]

/-- The effect may be written to the state: the field is legal (R20), the width answered is 1 to 32 (R64),
the element may stand in a register. -/
def Effect.Legal (s : State) : Effect → Prop
  | .setField f => f.Fits
  | .answer width _ => 1 ≤ width.toNat ∧ width.toNat ≤ 32
  | .write _ e => s.MayHold e

theorem State.MayHold.answer_legal {s : State} {e : Element} (h : s.MayHold e) (value : Nat) :
    (Effect.answer e.width value).Legal s :=
  have ⟨_, lo, hi, _⟩ := h
  ⟨lo, hi⟩

/-- In a state that meets the invariant every command has a legal effect or a legal error. -/
theorem State.Inv.effect {s : State} (hs : s.Inv) (i : Instr) :
    Yields (Effect.Legal s) (effect i s) := by
  have write (rd : Reg) {r : Except ErrorKind Element} (h : Yields s.MayHold r) :
      Yields (Effect.Legal s) (r.map (.write rd)) := h.map fun _ he => he
  cases i with
  | config m poly =>
    by_cases h : m = 0 ∨ m > mmax
    · rw [Machine.effect, if_pos h]; exact ⟨by decide, by decide⟩
    · rw [Machine.effect, if_neg h]; exact makeField_fits h poly
  | count => exact hs.readField.map fun _ ⟨_, lo, hi, _⟩ => ⟨lo, hi⟩
  | elem rd index =>
    exact write rd (elemResult_eq index s ▸
      hs.readField.bind fun _ ⟨hf, hfit⟩ => elemRead_yields hf hfit index)
  | add rd rs1 rs2 =>
    exact write rd (xorResult_eq rs1 rs2 s ▸ (hs.readSameWidth rs1 rs2).map fun _ => (·.sum))
  | sub rd rs1 rs2 =>
    exact write rd (xorResult_eq rs1 rs2 s ▸ (hs.readSameWidth rs1 rs2).map fun _ => (·.sum))
  | mul rd rs1 rs2 =>
    exact write rd (mulResult_eq rs1 rs2 s ▸ (hs.readSameField rs1 rs2).map fun _ => (·.product))
  | div rd rs1 rs2 =>
    exact write rd (divResult_eq rs1 rs2 s ▸ (hs.readSameField rs1 rs2).bind fun _ => (·.quotient))
  | inv rd rs1 =>
    exact write rd (invResult_eq rs1 s ▸ (hs.readSource rs1).bind fun _ => (·.inverse))
  | gcd rd rs1 rs2 =>
    exact write rd (gcdResult_eq rs1 rs2 s ▸ (hs.readSameField rs1 rs2).map fun _ => (·.gcd))
  | rdv rs1 => exact (hs.readSource rs1).map fun _ he => he.answer_legal _
  | rdp rs1 => exact (hs.readSource rs1).map fun _ he => he.answer_legal _

/-! ### Every step keeps the invariant -/

/-- Writing a legal effect, or a legal error, keeps the invariant. -/
theorem State.Inv.finish {s : State} (hs : s.Inv) {r : Except ErrorKind Effect}
    (hr : Yields (Effect.Legal s) r) : (finish r s).Inv := by
  cases r with
  | error k => exact hs.answer (errorWord_legal hr.1 hr.2)
  | ok x =>
    cases x with
    | setField f =>
      have ⟨lo, hi, _⟩ : f.Fits := hr
      exact (hs.setField hr).answer (okWord_legal lo hi _)
    | answer width value => exact hs.answer (okWord_legal hr.1 hr.2 value)
    | write rd e =>
      have ⟨_, lo, hi, _⟩ : s.MayHold e := hr
      exact (hs.setReg hr rd).answer (okWord_legal lo hi _)

theorem State.Inv.exec {i : Instr} {s t : State} (hs : s.Inv) (h : exec i s = .next t) : t.Inv :=
  exec_next.1 h ▸ hs.finish (hs.effect i)

theorem State.Inv.runWord {w : CmdWord} {s t : State} (hs : s.Inv) (h : runWord w s = .next t) :
    t.Inv := by
  cases hd : decode w with
  | ok i => exact hs.exec (runWord_ok hd s ▸ h)
  | error k =>
    obtain rfl := decode_error hd
    cases (runWord_error hd s).symm.trans h
    exact hs.answer (errorWord_legal (by decide) (by decide))

theorem State.Inv.atEdge {p : PortInput} {s t : State} (hs : s.Inv) (h : atEdge p s = .next t) :
    t.Inv := by
  rcases atEdge_cases p s with ⟨-, e⟩ | ⟨-, -, e⟩ | ⟨-, -, w, -, e⟩ | ⟨-, hr, -, e⟩
  · cases e.symm.trans h
    exact inv_resetCore (hs.takeResponse p).received
  · cases e.symm.trans h
    exact hs.takeResponse p
  · exact hs.runWord (e.symm.trans h)
  · cases e.symm.trans h
    exact hs.acceptCommand hr p

/-- Settles O17: a step is an edge at a state whose coming input has been dropped. -/
theorem stepKeepsInvariant : Obligations.StepKeepsInvariant :=
  fun _ _ hs h => hs.dropInput.atEdge h

end Sys2Proof.Machine
end

section
/-! The memory (20_memory.md): the element table, which changes with `F` alone (R41), and the run of commands,
each answered by one word (R48). -/

namespace Sys2Proof.Machine

/-! ### The element table -/

theorem tableEntry_of_no_field {s : State} (h : s.field = none) (n : Nat) : s.tableEntry n = none := by
  simp only [State.tableEntry, h]

section
variable {s : State} {f : FieldConfig} (hf : s.field = some f) {n : Nat}
include hf

theorem tableEntry_in_range (h : n < 2 ^ f.m.toNat) :
    s.tableEntry n = some { value := BitVec.ofNat 32 n, width := f.m, poly := f.p } := by
  simp only [State.tableEntry, hf, elemRead_ok.2 ⟨h, rfl⟩]

theorem tableEntry_out_of_range (h : 2 ^ f.m.toNat ≤ n) : s.tableEntry n = none := by
  simp only [State.tableEntry, hf, elemRead_error.2 ⟨h, rfl⟩]

end

/-- An index in range of a legal field's table fits the value of an element: m is at most 32 (R20). -/
theorem FieldConfig.Fits.index_toNat {f : FieldConfig} (hf : f.Fits) {n : Nat} (h : n < 2 ^ f.m.toNat) :
    (BitVec.ofNat 32 n).toNat = n := by
  obtain ⟨-, hi, -⟩ := hf
  have hn : n < 2 ^ 32 := h.trans_le (Nat.pow_le_pow_right (by decide) hi)
  exact (BitVec.toNat_ofNat n 32).trans (Nat.mod_eq_of_lt hn)

/-! ### What keeps `F` -/

theorem isConfig_eq_false {i : Instr} (h : ∀ m poly, i ≠ .config m poly) : isConfig i = false := by
  cases i with
  | config m poly => exact absurd rfl (h m poly)
  | _ => rfl

/-- A word that is not a CONFIG keeps `F`, an illegal word included (10_state.md R24; 60_exceptions.md
R190). -/
theorem runWord_field {w : CmdWord} {s t : State} (hw : ∀ m poly, decode w ≠ .ok (.config m poly))
    (h : runWord w s = .next t) : t.field = s.field := by
  cases hd : decode w with
  | error k =>
    cases (runWord_error hd s).symm.trans h
    exact raise_field s k
  | ok i =>
    have hi : isConfig i = false := isConfig_eq_false fun m poly e => hw m poly (hd.trans (e ▸ rfl))
    obtain rfl := exec_next.1 ((runWord_ok hd s).symm.trans h)
    exact finish_effect_field hi s

/-- Of the four kinds of edge only a reset, and the execution of a CONFIG, change `F`. -/
theorem atEdge_field {p : PortInput} {s t : State} (hrst : p.rst = false)
    (hw : ∀ w m poly, s.command = some w → decode w ≠ .ok (.config m poly))
    (h : atEdge p s = .next t) : t.field = s.field := by
  rcases atEdge_cases p s with ⟨hp, -⟩ | ⟨-, -, e⟩ | ⟨-, -, w, hc, e⟩ | ⟨-, -, -, e⟩
  · exact absurd (hrst.symm.trans hp) (by decide)
  · cases e.symm.trans h
    exact takeResponse_field p s
  · exact runWord_field (fun m poly => hw w m poly hc) (e.symm.trans h)
  · cases e.symm.trans h
    exact acceptCommand_field p s

/-- Settles O24: the entries are those of the table of `F`, and an edge that keeps `F` keeps them. -/
theorem tableIsFunctionOfField : Obligations.TableIsFunctionOfField := by
  refine ⟨fun s n hs => ⟨fun hn => tableEntry_of_no_field hn n, fun f hf => ⟨fun h => ?_, ?_⟩⟩, ?_⟩
  · exact ⟨_, tableEntry_in_range hf h, (hs.field f hf).index_toNat h, rfl, rfl⟩
  · exact tableEntry_out_of_range hf
  · intro s t h hrst hw
    exact tableEntry_congr (atEdge_field (s := dropInput s) hrst hw h)

/-! ### A run of commands -/

/-- Every word is answered, an illegal word included (60_exceptions.md R193). -/
theorem answers_runWord (w : CmdWord) (s : State) : Answers s (runWord w s) := by
  cases hd : decode w with
  | ok i => exact runWord_ok hd s ▸ everyCommandAnswers i s
  | error k => exact runWord_error hd s ▸ answers_raise s k

/-- A run of one word more: the word is executed, its response handed over, and the core is idle for the
words that follow (20_memory.md R48). -/
theorem runCommands_cons (w : CmdWord) (ws : List CmdWord) (s : State) :
    ∃ u r, runCommands (w :: ws) s = runCommands ws u ∧ u.command = none ∧ u.response = none ∧
      u.received = s.received ++ [r] := by
  obtain ⟨t, r, hrun, hc, hr, -, hrec⟩ := answers_runWord w s
  refine ⟨takeResponse .ready t, r, by rw [runCommands, hrun], ?_⟩
  rw [takeResponse_ready rfl hr]
  exact ⟨hc, rfl, congrArg (· ++ [r]) hrec⟩

/-- Settles O19, by induction on the words: each adds one response to those the host had. -/
theorem runAnswersEachCommand : Obligations.RunAnswersEachCommand := by
  intro ws
  induction ws with
  | nil => exact fun s hc hr => ⟨s, rfl, hc, hr, [], (List.append_nil _).symm, rfl⟩
  | cons w ws ih =>
    intro s _ _
    obtain ⟨u, r, hrun, hc, hr, hrec⟩ := runCommands_cons w ws s
    obtain ⟨t, ht, htc, htr, rs, hrs, hlen⟩ := ih u hc hr
    refine ⟨t, hrun.trans ht, htc, htr, r :: rs, ?_, congrArg (· + 1) hlen⟩
    rw [hrs, hrec, List.append_assoc, List.singleton_append]

end Sys2Proof.Machine
end

section
/-! SUPPORT. The fields of a command word and of a command (30_encoding.md R61, R62): a legal word is one
whose Z field is zero and whose other fields are those of its command, which is what the decoder, the
encoder and the masks of R63 are compared by. -/

namespace Sys2Proof

/-! ### The fields but Z -/

/-- The fields of a command word but Z, which is zero in every command (R61, R63). -/
@[ext] structure Fields where
  opc : Nat
  rd : Nat
  rs1 : Nat
  rs2 : Nat
  m : Nat
  imm : Nat

/-- The numbers are in the ranges of their fields (R61). -/
structure Fields.Fit (f : Fields) : Prop where
  opc : f.opc < 16
  rd : f.rd < 4
  rs1 : f.rs1 < 4
  rs2 : f.rs2 < 4
  m : f.m < 64
  imm : f.imm < 2 ^ 33

/-- The word of the fields. -/
def Fields.word (f : Fields) : CmdWord := packFields f.opc f.rd f.rs1 f.rs2 f.m f.imm

/-- The fields the decoder reads. -/
def fieldsOf (w : CmdWord) : Fields where
  opc := fieldOPC w
  rd := fieldRD w
  rs1 := fieldRS1 w
  rs2 := fieldRS2 w
  m := fieldM w
  imm := fieldIMM w

theorem fieldsOf_fit (w : CmdWord) : (fieldsOf w).Fit where
  opc := (w.extractLsb' 60 4).isLt
  rd := (w.extractLsb' 58 2).isLt
  rs1 := (w.extractLsb' 56 2).isLt
  rs2 := (w.extractLsb' 54 2).isLt
  m := (w.extractLsb' 48 6).isLt
  imm := (w.extractLsb' 0 33).isLt

/-- The fields of a packed word are read back whole. -/
theorem Fields.Fit.fieldsOf_word {f : Fields} (h : f.Fit) : fieldsOf f.word = f := by
  obtain ⟨ho, hd, h1, h2, hm, -, hi⟩ := fields_packFields h.opc h.rd h.rs1 h.rs2 h.m h.imm
  exact Fields.ext ho hd h1 h2 hm hi

theorem Fields.Fit.fieldZ_word {f : Fields} (h : f.Fit) : fieldZ f.word = 0 := by
  obtain ⟨-, -, -, -, -, hz, -⟩ := fields_packFields h.opc h.rd h.rs1 h.rs2 h.m h.imm
  exact hz

/-- A word with Z zero holds its fields and nothing else. -/
theorem word_fieldsOf {w : CmdWord} (hz : fieldZ w = 0) : (fieldsOf w).word = w := by
  apply BitVec.eq_of_toNat_eq
  have hw := word_of_fields w
  have hlt := w.isLt
  rw [hz, zero_mul, add_zero] at hw
  rw [hw] at hlt
  rw [hw]
  exact (BitVec.toNat_ofNat _ 64).trans (Nat.mod_eq_of_lt hlt)

/-! ### The fields of a command -/

/-- What a command puts in the fields: its operands in those of its format, zero in the others (R62, R67). -/
def Instr.fields : Instr → Fields
  | .config m poly => ⟨1, 0, 0, 0, m, poly⟩
  | .count => ⟨2, 0, 0, 0, 0, 0⟩
  | .elem rd index => ⟨3, regNumber rd, 0, 0, 0, index⟩
  | .add rd rs1 rs2 => ⟨4, regNumber rd, regNumber rs1, regNumber rs2, 0, 0⟩
  | .sub rd rs1 rs2 => ⟨5, regNumber rd, regNumber rs1, regNumber rs2, 0, 0⟩
  | .mul rd rs1 rs2 => ⟨6, regNumber rd, regNumber rs1, regNumber rs2, 0, 0⟩
  | .div rd rs1 rs2 => ⟨7, regNumber rd, regNumber rs1, regNumber rs2, 0, 0⟩
  | .inv rd rs1 => ⟨8, regNumber rd, regNumber rs1, 0, 0, 0⟩
  | .gcd rd rs1 rs2 => ⟨9, regNumber rd, regNumber rs1, regNumber rs2, 0, 0⟩
  | .rdv rs1 => ⟨10, 0, regNumber rs1, 0, 0, 0⟩
  | .rdp rs1 => ⟨11, 0, regNumber rs1, 0, 0, 0⟩

theorem encode_eq (i : Instr) : encode i = i.fields.word := by
  cases i <;> rfl

/-- A command is well formed when its degree, polynomial and index fit their fields (R70, R71); opcodes and
register numbers always do. -/
theorem Instr.wellFormed_iff (i : Instr) : i.WellFormed ↔ i.fields.Fit := by
  cases i with
  | config m poly =>
    rw [Instr.WellFormed, Instr.wellFormed, Bool.and_eq_true, decide_eq_true_eq, decide_eq_true_eq]
    exact ⟨fun ⟨hm, hp⟩ => by constructor <;> simp only [Instr.fields] <;> omega, fun h => ⟨h.m, h.imm⟩⟩
  | elem rd index =>
    rw [Instr.WellFormed, Instr.wellFormed, decide_eq_true_eq]
    have hrd := regNumber_lt rd
    exact ⟨fun hi => by constructor <;> simp only [Instr.fields] <;> omega, fun h => h.imm⟩
  | _ => exact ⟨fun _ => by constructor <;> simp [Instr.fields, regNumber_lt], fun _ => rfl⟩

/-! ### The decoder by fields -/

@[simp] theorem regNumber_fieldRD (w : CmdWord) : regNumber (regOfNumber (fieldRD w)) = fieldRD w :=
  regNumber_regOfNumber (fieldsOf_fit w).rd

@[simp] theorem regNumber_fieldRS1 (w : CmdWord) : regNumber (regOfNumber (fieldRS1 w)) = fieldRS1 w :=
  regNumber_regOfNumber (fieldsOf_fit w).rs1

@[simp] theorem regNumber_fieldRS2 (w : CmdWord) : regNumber (regOfNumber (fieldRS2 w)) = fieldRS2 w :=
  regNumber_regOfNumber (fieldsOf_fit w).rs2

/-- What the decoder reads has the fields of the word: those it does not read are zero (R63, R74). -/
theorem fields_of_decode {w : CmdWord} {i : Instr} (h : decode w = .ok i) :
    fieldZ w = 0 ∧ fieldsOf w = i.fields := by
  simp only [decode] at h
  split at h
  case isTrue => cases h
  case isFalse hz =>
    refine ⟨not_not.1 hz, ?_⟩
    split at h
    case h_12 => cases h
    all_goals
      rename_i hopc
      obtain ⟨hzero, rfl⟩ := legalIf_ok.1 h
      simp only [zeroMI, Bool.and_eq_true, beq_iff_eq] at hzero
      simp [fieldsOf, Instr.fields, hopc, hzero]

/-- A word with the fields of a command and Z zero decodes to it (R62, R67, R74). -/
theorem decode_of_fields {w : CmdWord} {i : Instr} (hz : fieldZ w = 0) (hf : fieldsOf w = i.fields) :
    decode w = .ok i := by
  cases i <;>
    · simp only [fieldsOf, Instr.fields, Fields.mk.injEq] at hf
      simp [decode, legalIf, zeroMI, hz, hf]

/-- Settles O7: the word of a command has the command's fields, and the decoder goes by the fields. -/
theorem decodeOfEncode : Obligations.DecodeOfEncode := by
  intro i hi
  have hfit := i.wellFormed_iff.1 hi
  rw [encode_eq]
  exact decode_of_fields hfit.fieldZ_word hfit.fieldsOf_word

/-- Settles O8: a word that decodes has the fields of its command, which therefore fit, and no other bit. -/
theorem encodeOfDecode : Obligations.EncodeOfDecode := by
  intro w i h
  obtain ⟨hz, hf⟩ := fields_of_decode h
  refine ⟨i.wellFormed_iff.2 (hf ▸ fieldsOf_fit w), ?_⟩
  rw [encode_eq, ← hf, word_fieldsOf hz]

/-- Settles O6: the decoder computes, on each word, the command of its fields. -/
theorem decodesSpecWords : Obligations.DecodesSpecWords :=
  ⟨rfl, rfl, rfl, rfl, rfl, rfl, rfl, rfl⟩

end Sys2Proof
end

section
/-! The masks of R63 (30_encoding.md): the test of a row, and what the decoder reads, compared field by field. -/

namespace Sys2Proof

/-! ### Words by fields -/

/-- Two words are equal when their fields are. -/
theorem eq_of_fields {w v : CmdWord} (hz : fieldZ w = fieldZ v) (hf : fieldsOf w = fieldsOf v) : w = v := by
  simp only [fieldsOf, Fields.mk.injEq] at hf
  obtain ⟨ho, hd, h1, h2, hm, hi⟩ := hf
  apply BitVec.eq_of_toNat_eq
  rw [word_of_fields w, word_of_fields v, ho, hd, h1, h2, hm, hi, hz]

/-- The fields of the bits two words share. -/
def Fields.and (f g : Fields) : Fields :=
  ⟨f.opc &&& g.opc, f.rd &&& g.rd, f.rs1 &&& g.rs1, f.rs2 &&& g.rs2, f.m &&& g.m, f.imm &&& g.imm⟩

theorem fieldsOf_and (w v : CmdWord) : fieldsOf (w &&& v) = (fieldsOf w).and (fieldsOf v) := by
  simp only [fieldsOf, Fields.and, fieldOPC, fieldRD, fieldRS1, fieldRS2, fieldM, fieldIMM,
    BitVec.extractLsb'_and, BitVec.toNat_and]

theorem fieldZ_and (w v : CmdWord) : fieldZ (w &&& v) = fieldZ w &&& fieldZ v := by
  simp only [fieldZ, BitVec.extractLsb'_and, BitVec.toNat_and]

/-- A mask that covers a field whole keeps it. -/
theorem Fields.Fit.and_ones {f : Fields} (h : f.Fit) :
    f.opc &&& 15 = f.opc ∧ f.rd &&& 3 = f.rd ∧ f.rs1 &&& 3 = f.rs1 ∧ f.rs2 &&& 3 = f.rs2 ∧
      f.m &&& 63 = f.m ∧ f.imm &&& 0x1FFFFFFFF = f.imm :=
  ⟨Nat.and_two_pow_sub_one_of_lt_two_pow (n := 4) h.opc,
    Nat.and_two_pow_sub_one_of_lt_two_pow (n := 2) h.rd,
    Nat.and_two_pow_sub_one_of_lt_two_pow (n := 2) h.rs1,
    Nat.and_two_pow_sub_one_of_lt_two_pow (n := 2) h.rs2,
    Nat.and_two_pow_sub_one_of_lt_two_pow (n := 6) h.m,
    Nat.and_two_pow_sub_one_of_lt_two_pow (n := 33) h.imm⟩

/-! ### The rows -/

/-- The fields a row's mask covers: the opcode and those the row's format does not use, which are zero in a
legal word (R62, R63). -/
def Instr.maskFields : Instr → Fields
  | .config _ _ => ⟨15, 3, 3, 3, 0, 0⟩
  | .count => ⟨15, 3, 3, 3, 63, 0x1FFFFFFFF⟩
  | .elem _ _ => ⟨15, 0, 3, 3, 63, 0⟩
  | .add _ _ _ => ⟨15, 0, 0, 0, 63, 0x1FFFFFFFF⟩
  | .sub _ _ _ => ⟨15, 0, 0, 0, 63, 0x1FFFFFFFF⟩
  | .mul _ _ _ => ⟨15, 0, 0, 0, 63, 0x1FFFFFFFF⟩
  | .div _ _ _ => ⟨15, 0, 0, 0, 63, 0x1FFFFFFFF⟩
  | .inv _ _ => ⟨15, 0, 0, 3, 63, 0x1FFFFFFFF⟩
  | .gcd _ _ _ => ⟨15, 0, 0, 0, 63, 0x1FFFFFFFF⟩
  | .rdv _ => ⟨15, 3, 0, 3, 63, 0x1FFFFFFFF⟩
  | .rdp _ => ⟨15, 3, 0, 3, 63, 0x1FFFFFFFF⟩

theorem fieldsOf_rowMask (i : Instr) : fieldsOf (rowMask i) = i.maskFields := by
  cases i <;> simp [fieldsOf, rowMask, Instr.maskFields, fieldOPC_eq, fieldRD_eq, fieldRS1_eq,
    fieldRS2_eq, fieldM_eq, fieldIMM_eq]

theorem fieldZ_rowMask (i : Instr) : fieldZ (rowMask i) = 2 ^ 15 - 1 := by
  cases i <;> simp [fieldZ_eq, rowMask]

theorem fieldsOf_rowMatch (i : Instr) : fieldsOf (rowMatch i) = ⟨i.fields.opc, 0, 0, 0, 0, 0⟩ := by
  cases i <;> simp [fieldsOf, rowMatch, Instr.fields, fieldOPC_eq, fieldRD_eq, fieldRS1_eq, fieldRS2_eq,
    fieldM_eq, fieldIMM_eq]

theorem fieldZ_rowMatch (i : Instr) : fieldZ (rowMatch i) = 0 := by
  cases i <;> simp [fieldZ_eq, rowMatch]

/-- The test of R63 by fields: Z is zero, the opcode is the row's, and the other fields covered are zero. -/
theorem and_rowMask_iff {w : CmdWord} {i : Instr} :
    w &&& rowMask i = rowMatch i ↔
      fieldZ w = 0 ∧ (fieldsOf w).and i.maskFields = ⟨i.fields.opc, 0, 0, 0, 0, 0⟩ := by
  have hZ : fieldZ (w &&& rowMask i) = fieldZ w := by
    rw [fieldZ_and, fieldZ_rowMask]
    exact Nat.and_two_pow_sub_one_of_lt_two_pow (w.extractLsb' 33 15).isLt
  have hF : fieldsOf (w &&& rowMask i) = (fieldsOf w).and i.maskFields := by
    rw [fieldsOf_and, fieldsOf_rowMask]
  rw [← hZ, ← hF, ← fieldsOf_rowMatch]
  exact ⟨fun h => ⟨h ▸ fieldZ_rowMatch i, congrArg fieldsOf h⟩,
    fun ⟨hz, hf⟩ => eq_of_fields (hz.trans (fieldZ_rowMatch i).symm) hf⟩

/-- The fields of a command not in the format of its row are zero (R62). -/
theorem Instr.fields_and_maskFields (i : Instr) :
    i.fields.and i.maskFields = ⟨i.fields.opc, 0, 0, 0, 0, 0⟩ := by
  cases i <;> simp [Instr.fields, Instr.maskFields, Fields.and]

/-- A word that meets the test of a row decodes to a command of the row, with the operands that stand in the
fields of its format (R63, R74). -/
theorem decode_of_and_rowMask {w : CmdWord} {i : Instr} (h : w &&& rowMask i = rowMatch i) :
    ∃ j, decode w = .ok j ∧ rowMatch j = rowMatch i := by
  obtain ⟨hz, hf⟩ := and_rowMask_iff.1 h
  have hfit := (fieldsOf_fit w).and_ones
  simp only [fieldsOf] at hfit
  cases i <;>
    · simp only [fieldsOf, Fields.and, Instr.maskFields, Instr.fields, hfit, Fields.mk.injEq] at hf
      simp [decode, legalIf, zeroMI, hz, hf, rowMatch]

/-- Settles O9: a legal word has the fields of its command, which meet the test of its row; a word that meets
the test of a row decodes; and `IllegalCommand` is the decoder's only error. -/
theorem legalWordsMatchMasks : Obligations.LegalWordsMatchMasks := by
  have matches_row (w : CmdWord) (i : Instr) (h : decode w = .ok i) : w &&& rowMask i = rowMatch i := by
    obtain ⟨hz, hf⟩ := fields_of_decode h
    exact and_rowMask_iff.2 ⟨hz, hf ▸ i.fields_and_maskFields⟩
  refine ⟨matches_row, fun w i => decode_of_and_rowMask, fun w h => ?_⟩
  cases hd : decode w with
  | ok i => exact absurd (matches_row w i hd) (h i)
  | error k => rw [Machine.decode_error hd]

end Sys2Proof
end

section
/-! The written form (30_encoding.md R76): what is written for a number or a register reads back, a line breaks
into the tokens it was put together from, and the tokens are the command's mnemonic and operands. -/

namespace Sys2Proof.Machine

/-! ### Numbers and registers -/

theorem readDigits_toDigits (n : Nat) : readDigits 10 (Nat.toDigits 10 n) 0 = some n := by
  induction n using Nat.strongRecOn with
  | ind n ih =>
    by_cases h : n < 10
    · rw [Nat.toDigits_of_lt_base h]
      simp [readDigits, digitIn_digitChar n h]
    · have hlast := digitIn_digitChar (n % 10) (Nat.mod_lt n (by decide))
      rw [Nat.toDigits_of_base_le (by decide) (not_lt.1 h), readDigits_append, ih (n / 10) (by omega)]
      simp only [Option.bind_some, readDigits, hlast, Option.some.injEq]
      omega

/-- A text of decimal digits has no `0x` or `0b`: it is read as decimal. -/
theorem readNumber_of_isDigit {t : List Char} (hne : t ≠ []) (h : ∀ c ∈ t, c.isDigit = true) :
    readNumber t = readDigits 10 t 0 := by
  unfold readNumber
  split
  case h_1 => exact absurd (h 'x' (by simp)) (by decide)
  case h_2 => exact absurd (h 'b' (by simp)) (by decide)
  case h_3 => rfl
  case h_4 => exact absurd rfl hne

theorem isDigit_of_mem_numberText {n : Nat} {c : Char} (h : c ∈ numberText n) : c.isDigit = true :=
  Nat.isDigit_of_mem_toDigits (by decide) (by decide) h

@[simp] theorem readNumber_numberText (n : Nat) : readNumber (numberText n) = some n :=
  (readNumber_of_isDigit Nat.toDigits_ne_nil fun _ => isDigit_of_mem_numberText).trans
    (readDigits_toDigits n)

@[simp] theorem readReg_regText (r : Reg) : readReg (regText r) = some r := by
  cases r <;> rfl

/-! ### Tokens -/

/-- The characters that end a token (R76). -/
def separators : List Char := [';', ',', ' ', '\t']

/-- The text is one token: it is not empty and holds no separator. -/
structure IsToken (t : List Char) : Prop where
  ne_nil : t ≠ []
  not_separator : ∀ c ∈ t, c ∉ separators

theorem IsToken.ne_comma {t : List Char} (h : IsToken t) : t ≠ [','] := by
  rintro rfl
  exact h.not_separator ',' (by simp) (by decide)

theorem isToken_numberText (n : Nat) : IsToken (numberText n) where
  ne_nil := Nat.toDigits_ne_nil
  not_separator c hc hs := by
    have hd := isDigit_of_mem_numberText hc
    have not_digit : ∀ c ∈ separators, c.isDigit = false := by simp [separators]
    exact absurd (hd.symm.trans (not_digit c hs)) (by decide)

theorem isToken_regText (r : Reg) : IsToken (regText r) := by
  cases r <;> exact ⟨by simp [regText], by simp [regText, separators]⟩

theorem isToken_mnemonic (i : Instr) : IsToken (mnemonic i) := by
  cases i <;> exact ⟨by simp [mnemonic], by simp [mnemonic, separators]⟩

theorem isToken_operandTexts (i : Instr) : ∀ t ∈ operandTexts i, IsToken t := by
  cases i <;> simp [operandTexts, isToken_numberText, isToken_regText]

theorem tokens_append {t : List Char} (h : ∀ c ∈ t, c ∉ separators) (cs letters : List Char) :
    tokens (t ++ cs) letters = tokens cs (t.reverse ++ letters) := by
  induction t generalizing letters with
  | nil => rfl
  | cons c t ih =>
    have hc : c ≠ ';' ∧ c ≠ ',' ∧ c ≠ ' ' ∧ c ≠ '\t' := by
      simpa [separators] using h c List.mem_cons_self
    have ht := ih (fun d hd => h d (List.mem_cons_of_mem c hd)) (c :: letters)
    simp [tokens, hc, ht]

theorem IsToken.pushToken_reverse {t : List Char} (h : IsToken t) (ts : List (List Char)) :
    pushToken t.reverse ts = t :: ts := by
  unfold pushToken
  split
  case h_1 e => exact absurd (List.reverse_eq_nil_iff.1 e) h.ne_nil
  case h_2 => rw [List.reverse_reverse]

section
variable {t : List Char} (h : IsToken t)
include h

theorem IsToken.tokens_eq : tokens t [] = [t] := by
  have := tokens_append h.not_separator [] []
  rw [List.append_nil, List.append_nil] at this
  rw [this, tokens, h.pushToken_reverse]

theorem IsToken.tokens_blank (cs : List Char) : tokens (t ++ ' ' :: cs) [] = t :: tokens cs [] := by
  rw [tokens_append h.not_separator, List.append_nil]
  exact h.pushToken_reverse (tokens cs [])

theorem IsToken.tokens_comma (cs : List Char) :
    tokens (t ++ ',' :: ' ' :: cs) [] = t :: [','] :: tokens cs [] := by
  rw [tokens_append h.not_separator, List.append_nil]
  exact h.pushToken_reverse ([','] :: tokens cs [])

end

/-- Between each two operands stands the token of a comma. -/
theorem tokens_commaSeparated {ts : List (List Char)} (h : ∀ t ∈ ts, IsToken t) :
    tokens (commaSeparated ts) [] = ts.intersperse [','] := by
  induction ts using commaSeparated.induct with
  | case1 => rfl
  | case2 t => exact (h t List.mem_cons_self).tokens_eq
  | case3 t ts hne ih =>
    obtain ⟨u, us, rfl⟩ := List.exists_cons_of_ne_nil hne
    rw [List.intersperse_cons_cons, ← ih fun v hv => h v (List.mem_cons_of_mem t hv)]
    have hline : commaSeparated (t :: u :: us) = t ++ ',' :: ' ' :: commaSeparated (u :: us) := by
      simp [commaSeparated]
    rw [hline]
    exact (h t List.mem_cons_self).tokens_comma (commaSeparated (u :: us))

theorem operands_intersperse {ts : List (List Char)} (h : ∀ t ∈ ts, IsToken t) :
    operands (ts.intersperse [',']) = some ts := by
  induction ts using commaSeparated.induct with
  | case1 => rfl
  | case2 t => exact if_neg (h t List.mem_cons_self).ne_comma
  | case3 t ts hne ih =>
    obtain ⟨u, us, rfl⟩ := List.exists_cons_of_ne_nil hne
    rw [List.intersperse_cons_cons, operands, ih fun v hv => h v (List.mem_cons_of_mem t hv)]
    have hrest : (u :: us).intersperse [','] ≠ [] := by cases us <;> simp
    simp [(h t List.mem_cons_self).ne_comma, hrest]

/-! ### Lines -/

theorem tokens_asm (i : Instr) : tokens (asm i) [] = mnemonic i :: (operandTexts i).intersperse [','] := by
  have hname := isToken_mnemonic i
  rw [← tokens_commaSeparated (isToken_operandTexts i)]
  unfold asm
  split
  case h_1 e => rw [e]; exact hname.tokens_eq
  case h_2 => rw [List.append_assoc]; exact hname.tokens_blank _

theorem readCommand_operandTexts (i : Instr) : readCommand (mnemonic i) (operandTexts i) = some i := by
  cases i <;> simp [readCommand, mnemonic, operandTexts, readR, readS]

/-- Settles O10: the line breaks into the mnemonic and the operands, which read back one by one. -/
theorem assemblerReadsWhatItWrites : Obligations.AssemblerReadsWhatItWrites := by
  intro i hi
  have hops := operands_intersperse (isToken_operandTexts i)
  simp only [assemble, tokens_asm, hops, readCommand_operandTexts]
  exact if_pos hi

end Sys2Proof.Machine
end

section
/-! Words answered with an error (30_encoding.md R66; 60_exceptions.md R190): the word is illegal, or the effect
of its command is an error, and both end with `raise`. -/

namespace Sys2Proof.Machine

/-- A STATUS other than 0 is an error's: a success answers STATUS 0 (R64). -/
theorem finish_status_ne_zero {x : Except ErrorKind Effect} {s : State} {r : RspWord}
    (hr : (finish x s).response = some r) (hst : statusOf r ≠ 0) : ∃ k, x = .error k := by
  have not_ok {width : BitVec 6} {value : Nat} (h : some (okWord width value) = some r) : False := by
    cases h
    exact hst (statusOf_responseWord ..)
  rcases x with k | (f | ⟨width, value⟩ | ⟨rd, e⟩)
  · exact ⟨k, rfl⟩
  all_goals exact (not_ok hr).elim

/-- A word answered with an error does what `raise` does: the word is illegal, or its command has an error for
its effect. -/
theorem runWord_status_ne_zero {w : CmdWord} {s t : State} {r : RspWord} (h : runWord w s = .next t)
    (hr : t.response = some r) (hst : statusOf r ≠ 0) : ∃ k, t = raise k s := by
  cases hd : decode w with
  | error k => exact ⟨k, (Host.Outcome.next.inj ((runWord_error hd s).symm.trans h)).symm⟩
  | ok i =>
    obtain rfl := exec_next.1 ((runWord_ok hd s).symm.trans h)
    obtain ⟨k, hk⟩ := finish_status_ne_zero hr hst
    exact ⟨k, congrArg (finish · s) hk⟩

/-- Settles O23: a word answered with an error raises it, and `raise` writes the response alone. -/
theorem errorKeepsState : Obligations.ErrorKeepsState := by
  intro w s t r h hr hst
  obtain ⟨k, rfl⟩ := runWord_status_ne_zero h hr hst
  obtain rfl : errorWord k = r := Option.some.inj hr
  exact ⟨⟨raise_field s k, raise_reg s k⟩, rfl, rfl, rfl, widthOf_responseWord .., zeroOf_responseWord ..,
    valueOf_responseWord ..⟩

end Sys2Proof.Machine
end

section
/-! The bits of CTZ and CLMUL (40_bitpolynomial.md R95, R98): the count stops at the least set bit, and a
coefficient of the product is the parity of the pairs of set bits that meet in it. -/

namespace Sys2Proof.Machine

/-! ### CTZ (R95) -/

/-- A count of at most `fuel` halvings finds a set bit below `2 ^ (fuel + 1)`. -/
theorem testBit_ctzLoop {fuel a : Nat} (ha : a ≠ 0) (hlt : a < 2 ^ (fuel + 1)) :
    a.testBit (ctzLoop fuel a) = true := by
  induction fuel generalizing a with
  | zero =>
    obtain rfl : a = 1 := by omega
    rfl
  | succ fuel ih =>
    rw [ctzLoop]
    split
    case isTrue hodd => simpa using hodd
    case isFalse heven =>
      rw [Nat.add_comm, Nat.testBit_add_one]
      rw [pow_succ] at hlt
      exact ih (by omega) (by omega)

/-- Every bit passed is clear, whatever the bound. -/
theorem testBit_of_lt_ctzLoop {fuel a i : Nat} (hi : i < ctzLoop fuel a) : a.testBit i = false := by
  induction fuel generalizing a i with
  | zero => exact absurd hi (Nat.not_lt_zero i)
  | succ fuel ih =>
    rw [ctzLoop] at hi
    split at hi
    case isTrue => exact absurd hi (Nat.not_lt_zero i)
    case isFalse heven =>
      cases i with
      | zero => simpa using heven
      | succ i =>
        rw [Nat.testBit_add_one]
        exact ih (by omega)

theorem testBit_ctz {a : Nat} (ha : a ≠ 0) : a.testBit (ctz a) = true :=
  testBit_ctzLoop ha (lt_two_pow_deg_succ a)

theorem testBit_of_lt_ctz {a i : Nat} (hi : i < ctz a) : a.testBit i = false :=
  testBit_of_lt_ctzLoop hi

/-- The shift by CTZ brings the least set bit to the constant term. -/
theorem shiftRight_ctz_odd {a : Nat} (ha : a ≠ 0) : (a >>> ctz a) % 2 = 1 := by
  have hbit : (a >>> ctz a).testBit 0 = true := by rw [Nat.testBit_shiftRight]; exact testBit_ctz ha
  rwa [Nat.testBit_zero, decide_eq_true_iff] at hbit

/-- Settles O48: the count stops at a set bit, which the shift makes the constant term, and passes clear bits
alone. -/
theorem trailingZerosExactly : Obligations.TrailingZerosExactly :=
  fun _ ha => ⟨testBit_ctz ha, fun _ hi => testBit_of_lt_ctz hi, shiftRight_ctz_odd ha⟩

/-! ### CLMUL (R98) -/

/-- Bit k of b adds `a <<< k`, which has no bit below k. -/
theorem testBit_clmulBelow_succ (a b k n : Nat) :
    (clmulBelow a b (k + 1)).testBit n =
      ((clmulBelow a b k).testBit n ^^ (decide (k ≤ n) && (a.testBit (n - k) && b.testBit k))) := by
  rw [clmulBelow, Nat.testBit_xor]
  cases b.testBit k <;> simp [Nat.testBit_shiftLeft]

/-- The bits of b above n do not reach coefficient n. -/
theorem testBit_clmulBelow_extend (a b n k : Nat) :
    (clmulBelow a b (n + 1 + k)).testBit n = (clmulBelow a b (n + 1)).testBit n := by
  induction k with
  | zero => rfl
  | succ k ih =>
    have hk : ¬ n + 1 + k ≤ n := by omega
    rw [← Nat.add_assoc, testBit_clmulBelow_succ, ih]
    simp [hk]

/-- Coefficient n of the product, from the bits of b up to n. -/
theorem testBit_clmul (a b n : Nat) : (clmul a b).testBit n = (clmulBelow a b (n + 1)).testBit n := by
  have hb : b < 2 ^ (n + 1 + (deg b + 1)) :=
    lt_of_lt_of_le (lt_two_pow_deg_succ b) (Nat.pow_le_pow_right (by decide) (Nat.le_add_left _ _))
  rw [clmul_eq_below hb, testBit_clmulBelow_extend]

/-- One more index changes the parity of a count exactly when it is counted. -/
theorem odd_length_filter_range_succ (p : Nat → Bool) (k : Nat) :
    decide (((List.range (k + 1)).filter p).length % 2 = 1) =
      (decide (((List.range k).filter p).length % 2 = 1) ^^ p k) := by
  rw [List.range_succ, List.filter_append, List.length_append]
  cases hp : p k with
  | false => simp [hp]
  | true =>
    rcases Nat.mod_two_eq_zero_or_one ((List.range k).filter p).length with h | h <;>
      simp [hp, h, Nat.add_mod]

/-- Up to bit n of b, coefficient n of the partial product is the sum over GF(2) of the products of
coefficients whose indices add up to n. -/
theorem testBit_clmulBelow {n k : Nat} (hk : k ≤ n + 1) (a b : Nat) :
    (clmulBelow a b k).testBit n =
      decide (((List.range k).filter fun i => a.testBit (n - i) && b.testBit i).length % 2 = 1) := by
  induction k with
  | zero => simp [clmulBelow]
  | succ k ih =>
    have hkn : k ≤ n := by omega
    rw [testBit_clmulBelow_succ, odd_length_filter_range_succ, ih (by omega)]
    simp [hkn]

/-- Settles O49: the bits of b up to n decide coefficient n, and each adds its product to the sum. -/
theorem clmulIsPolynomialProduct : Obligations.ClmulIsPolynomialProduct := by
  intro a b n
  rw [testBit_clmul]
  exact testBit_clmulBelow le_rfl a b

end Sys2Proof.Machine
end

section
/-! SUPPORT. What a proof about one command needs, said once for all of them: the word that decodes to it
(30_encoding.md R61, R74), and what its outcome is for each form of its effect (10_state.md R24; 60_exceptions.md
R190), with the response as a number (30_encoding.md R64). -/

namespace Sys2Proof

/-! ### The word of a command -/

/-- The one word of a command is its encoding, and a command has one when its operands fit their fields. -/
theorem decode_ok_iff {w : CmdWord} {i : Instr} : decode w = .ok i ↔ i.WellFormed ∧ w = encode i := by
  refine ⟨fun h => ?_, ?_⟩
  · obtain ⟨hwf, rfl⟩ := encodeOfDecode w i h
    exact ⟨hwf, rfl⟩
  · rintro ⟨hwf, rfl⟩
    exact decodeOfEncode i hwf

theorem decode_ok_iff_of_wellFormed {i : Instr} (h : i.WellFormed) (w : CmdWord) :
    decode w = .ok i ↔ w = encode i :=
  decode_ok_iff.trans (and_iff_right h)

theorem wellFormed_config {m poly : Nat} :
    (Instr.config m poly).WellFormed ↔ m < 2 ^ 6 ∧ poly < 2 ^ 33 := by
  simp [Instr.WellFormed, Instr.wellFormed]

theorem wellFormed_elem {rd : Reg} {index : Nat} :
    (Instr.elem rd index).WellFormed ↔ index < 2 ^ 33 := by
  simp [Instr.WellFormed, Instr.wellFormed]

end Sys2Proof

namespace Sys2Proof.Machine

/-! ### The outcome of a command by its effect -/

section
variable {i : Instr} {s : State}

theorem exec_of_effect {x : Except ErrorKind Effect} (h : effect i s = x) :
    exec i s = .next (finish x s) := h ▸ exec_eq i s

theorem exec_raises {k : ErrorKind} {code : Nat} (h : effect i s = .error k)
    (hcode : (errorCode k).toNat = code) : ∃ t, exec i s = .next t ∧ Raises s t code :=
  ⟨raise k s, exec_of_effect h, hcode ▸ raises_raise s k⟩

theorem exec_setsField {f : FieldConfig} (h : effect i s = .ok (.setField f))
    (hlt : f.modulus < 2 ^ 33) :
    ∃ t, exec i s = .next t ∧ t.field = some f ∧ (∀ r, t.reg r = s.reg r) ∧
      Ends s t (rspNumber 0 f.m.toNat f.modulus) :=
  ⟨_, exec_of_effect h, rfl, by simp,
    okWord_eq_rspNumber f.m hlt ▸ ends_answer (setField_inputs s f) (setField_received s f) _⟩

theorem exec_answers {width : BitVec 6} {value : Nat} (h : effect i s = .ok (.answer width value))
    (hlt : value < 2 ^ 33) :
    ∃ t, exec i s = .next t ∧ SameCore s t ∧ Ends s t (rspNumber 0 width.toNat value) :=
  ⟨_, exec_of_effect h, ⟨rfl, respond_reg s width value⟩,
    okWord_eq_rspNumber width hlt ▸ ends_respond s width value⟩

/-- The value of an element fits VALUE, which has a bit more (R64). -/
theorem Element.value_lt (e : Element) : e.value.toNat < 2 ^ 33 := by
  have := e.value.isLt
  omega

theorem exec_writes {rd : Reg} {e : Element} (h : effect i s = .ok (.write rd e)) :
    ∃ t, exec i s = .next t ∧ Writes s t rd e ∧
      Ends s t (rspNumber 0 e.width.toNat e.value.toNat) := by
  refine ⟨_, exec_of_effect h, ⟨by simp, by simp, fun r hr => ?_⟩, ?_⟩
  · simp [setReg_reg_of_ne s e hr]
  · exact okWord_eq_rspNumber e.width e.value_lt ▸
      ends_answer (setReg_inputs s rd e) (setReg_received s rd e) _

end

/-- STATUS 0 is a success's: an error answers its code (R66). -/
theorem finish_status_zero {x : Except ErrorKind Effect} {s : State} {r : RspWord}
    (hr : (finish x s).response = some r) (hst : statusOf r = 0) : ∃ y, x = .ok y := by
  cases x with
  | ok y => exact ⟨y, rfl⟩
  | error k =>
    obtain rfl : errorWord k = r := Option.some.inj hr
    exact absurd hst (statusOf_errorWord_ne_zero k)

end Sys2Proof.Machine
end

section
/-! Field construction and element access (41_field.md): what CONFIG, COUNT, ELEM, RDV and RDP make of `F` and of
their source (R110 to R115), and the bit-string form in a response (R120). -/

namespace Sys2Proof.Machine

/-! ### The modulus -/

/-- A modulus of degree at most 32 fits VALUE, which has 33 bits (30_encoding.md R64). -/
theorem effectiveModulus_lt {m p : Nat} (hm : m ≤ 32) (hp : p < 2 ^ m) :
    effectiveModulus m p < 2 ^ 33 := by
  have : 2 ^ m ≤ 2 ^ 32 := Nat.pow_le_pow_right (by decide) hm
  unfold effectiveModulus
  omega

theorem FieldConfig.Fits.modulus_lt {f : FieldConfig} (h : f.Fits) : f.modulus < 2 ^ 33 :=
  have ⟨_, hi, hp⟩ := h
  effectiveModulus_lt hi hp

theorem Element.Fits.modulus_lt {e : Element} (h : e.Fits) : e.modulus < 2 ^ 33 :=
  have ⟨_, hi, _, hp⟩ := h
  effectiveModulus_lt hi hp

/-! ### CONFIG -/

section
variable {m : Nat} (h : ¬ (m = 0 ∨ m > mmax))
include h

/-- An accepted degree fits F.m. -/
theorem makeField_m_toNat (poly : Nat) : (makeField m poly).m.toNat = m := by
  unfold mmax at h
  exact (BitVec.toNat_ofNat m 6).trans (Nat.mod_eq_of_lt (by omega))

/-- The low m bits of the polynomial fit F.p. -/
theorem makeField_p_toNat (poly : Nat) : (makeField m poly).p.toNat = poly % 2 ^ m := by
  have hle : 2 ^ m ≤ 2 ^ 32 := Nat.pow_le_pow_right (by decide) (by unfold mmax at h; omega)
  have hlt : poly % 2 ^ m < 2 ^ m := Nat.mod_lt _ (Nat.two_pow_pos m)
  exact (BitVec.toNat_ofNat _ 32).trans (Nat.mod_eq_of_lt (hlt.trans_le hle))

theorem makeField_modulus (poly : Nat) : (makeField m poly).modulus = 2 ^ m + poly % 2 ^ m := by
  rw [FieldConfig.modulus, makeField_m_toNat h, makeField_p_toNat h, effectiveModulus]

end

/-- Settles O26: the degree is accepted, and the field made fits the response, or it is refused. -/
theorem configStoresField : Obligations.ConfigStoresField := by
  intro s m poly
  refine ⟨fun w => ?_, fun lo hi => ?_, fun h => exec_raises (if_pos h) rfl⟩
  · rw [decode_ok_iff, wellFormed_config, and_assoc]; rfl
  · have h : ¬ (m = 0 ∨ m > mmax) := by unfold mmax; omega
    have := exec_setsField (i := .config m poly) (s := s) (if_neg h) (makeField_fits h poly).modulus_lt
    rwa [makeField_m_toNat h, makeField_modulus h] at this

/-! ### COUNT and ELEM -/

theorem effect_count_of_field {s : State} {f : FieldConfig} (h : s.field = some f) :
    effect .count s = .ok (.answer f.m (2 ^ f.m.toNat)) := by
  rw [effect, readField_ok.2 h]; rfl

theorem effect_count_of_no_field {s : State} (h : s.field = none) : effect .count s = .error .noField := by
  rw [effect, readField_error.2 ⟨h, rfl⟩]; rfl

/-- Settles O27: with a field, 2^m is at most 2^32 and fits the response. -/
theorem countAnswersElements : Obligations.CountAnswersElements := by
  intro s hs
  refine ⟨decode_ok_iff_of_wellFormed rfl, fun f hf => ?_,
    fun h => exec_raises (effect_count_of_no_field h) rfl⟩
  have ⟨_, hi, _⟩ := hs.field f hf
  exact exec_answers (effect_count_of_field hf) (Nat.pow_lt_pow_right (by decide) (by omega))

theorem effect_elem_of_no_field {s : State} (h : s.field = none) (rd : Reg) (index : Nat) :
    effect (.elem rd index) s = .error .noField := by
  rw [effect, elemResult_eq, readField_error.2 ⟨h, rfl⟩]; rfl

/-- With a field ELEM takes what the table holds at the index (20_memory.md R42). -/
theorem effect_elem_of_field {s : State} {f : FieldConfig} (h : s.field = some f) (rd : Reg) (index : Nat) :
    effect (.elem rd index) s = (elemRead f index).map (.write rd) := by
  rw [effect, elemResult_eq, readField_ok.2 h]; rfl

/-- Settles O28: the entry of the table at the index is written, and an index in range is its own value. -/
theorem elemWritesElement : Obligations.ElemWritesElement := by
  intro s rd index hs
  refine ⟨fun w => ?_, fun f hf hlt => ?_,
    fun h => exec_raises (effect_elem_of_no_field h rd index) rfl, fun f hf hge => ?_⟩
  · rw [decode_ok_iff, wellFormed_elem]; rfl
  · have he := effect_elem_of_field hf rd index
    rw [elemRead_ok.2 ⟨hlt, rfl⟩] at he
    have := exec_writes he
    rwa [(hs.field f hf).index_toNat hlt] at this
  · have he := effect_elem_of_field hf rd index
    rw [elemRead_error.2 ⟨hge, rfl⟩] at he
    exact exec_raises he rfl

/-! ### RDV and RDP -/

section
variable {s : State} {rs1 : Reg}

theorem effect_rdv_of_some {e : Element} (h : s.reg rs1 = some e) :
    effect (.rdv rs1) s = .ok (.answer e.width e.value.toNat) := by
  rw [effect, readSource_ok.2 h]; rfl

theorem effect_rdv_of_none (h : s.reg rs1 = none) : effect (.rdv rs1) s = .error .emptyRegister := by
  rw [effect, readSource_error.2 ⟨h, rfl⟩]; rfl

theorem effect_rdp_of_some {e : Element} (h : s.reg rs1 = some e) :
    effect (.rdp rs1) s = .ok (.answer e.width e.modulus) := by
  rw [effect, readSource_ok.2 h]; rfl

theorem effect_rdp_of_none (h : s.reg rs1 = none) : effect (.rdp rs1) s = .error .emptyRegister := by
  rw [effect, readSource_error.2 ⟨h, rfl⟩]; rfl

end

/-- Settles O29: the register holds an element, whose value fits the response, or is empty. -/
theorem rdvAnswersValue : Obligations.RdvAnswersValue := fun _ _ =>
  ⟨decode_ok_iff_of_wellFormed rfl, fun e he => exec_answers (effect_rdv_of_some he) e.value_lt,
    fun h => exec_raises (effect_rdv_of_none h) rfl⟩

/-- Settles O30: the register holds a legal element, whose modulus fits the response, or is empty. -/
theorem rdpAnswersModulus : Obligations.RdpAnswersModulus := fun _ rs1 hs =>
  ⟨decode_ok_iff_of_wellFormed rfl,
    fun e he => exec_answers (effect_rdp_of_some he) (hs.regs rs1 e he).modulus_lt,
    fun h => exec_raises (effect_rdp_of_none h) rfl⟩

/-! ### The bit-string form -/

@[simp] theorem length_bitString (m value : Nat) : (bitString m value).length = m := by simp [bitString]

theorem getElem?_bitString {m k : Nat} (hk : k < m) (value : Nat) :
    (bitString m value)[k]? = some (value.testBit (m - 1 - k)) := by
  simp [bitString, hk]

/-- The response of an element carries the element's bit string. -/
theorem responseBits_element (e : Element) :
    responseBits (okWord e.width e.value.toNat) = bitString e.width.toNat e.value.toNat := by
  rw [responseBits, okWord, widthOf_responseWord, valueOf_responseWord, BitVec.toNat_ofNat,
    Nat.mod_eq_of_lt e.value_lt]

/-- A success of a command that writes an element, or of RDV, answers the element that is then in the register
written or read. -/
theorem response_of_element {i : Instr} {s : State} {r : RspWord} {rd : Reg} {e : Element}
    (hr : (finish (effect i s) s).response = some r) (hst : statusOf r = 0)
    (hi : destination i = some rd ∨ i = .rdv rd) (he : (finish (effect i s) s).reg rd = some e) :
    r = okWord e.width e.value.toNat := by
  obtain ⟨x, hx⟩ := finish_status_zero hr hst
  rw [hx] at hr he
  rcases hi with hd | rfl
  · have hof := effect_of hx
    cases x with
    | setField f => exact absurd (hd.symm.trans hof.2) (by simp)
    | answer width value => exact absurd (hd.symm.trans hof) (by simp)
    | write rd' e' =>
      obtain rfl : rd' = rd := Option.some.inj (hof.symm.trans hd)
      obtain rfl : e' = e := by simpa using he
      exact (Option.some.inj hr).symm
  · obtain ⟨e', hsrc, rfl⟩ := map_eq_ok.1 hx
    have he' : some e' = some e := by simpa [readSource_ok.1 hsrc] using he
    cases he'
    exact (Option.some.inj hr).symm

/-- Settles O39: the response is that of the element in the register, whose bits are the element's string. -/
theorem responseCarriesBitString : Obligations.ResponseCarriesBitString := by
  intro i s t r rd e _ h hr hst hi he
  obtain rfl := exec_next.1 h
  obtain rfl := response_of_element hr hst hi he
  rw [responseBits_element]
  exact ⟨length_bitString _ _, fun k hk => getElem?_bitString hk _⟩

end Sys2Proof.Machine
end

section
/-! The adder/subtractor (42_addsub.md): what ADD and SUB make of their operands (R130, R131), and that the order
of the operands does not reach the response (R132). -/

namespace Sys2Proof.Machine

/-! ### ADD -/

section
variable {s : State} {rs1 rs2 : Reg}

theorem effect_add_of_sameWidth {a b : Element} (ha : s.reg rs1 = some a) (hb : s.reg rs2 = some b)
    (hw : a.width = b.width) (rd : Reg) :
    effect (.add rd rs1 rs2) s = .ok (.write rd (Element.sum (a, b))) := by
  rw [effect, xorResult_eq, (readSameWidth_ok (ab := (a, b))).2 ⟨ha, hb, hw⟩]; rfl

theorem effect_add_of_empty (h : s.reg rs1 = none ∨ s.reg rs2 = none) (rd : Reg) :
    effect (.add rd rs1 rs2) s = .error .emptyRegister := by
  rw [effect, xorResult_eq, readSameWidth_error.2 (.inl ⟨h, rfl⟩)]; rfl

theorem effect_add_of_width_ne {a b : Element} (ha : s.reg rs1 = some a) (hb : s.reg rs2 = some b)
    (hw : a.width ≠ b.width) (rd : Reg) :
    effect (.add rd rs1 rs2) s = .error .incompatibleOperands := by
  rw [effect, xorResult_eq, readSameWidth_error.2 (.inr ⟨⟨a, b, ha, hb, hw⟩, rfl⟩)]; rfl

end

/-- Settles O31: the sources hold elements of one width, or one is empty, or the widths differ. -/
theorem addWritesXor : Obligations.AddWritesXor := fun _ rd _ _ =>
  ⟨decode_ok_iff_of_wellFormed rfl,
    fun _ _ ha hb hw => exec_writes (effect_add_of_sameWidth ha hb hw rd),
    fun h => exec_raises (effect_add_of_empty h rd) rfl,
    fun _ _ ha hb hw => exec_raises (effect_add_of_width_ne ha hb hw rd) rfl⟩

/-! ### SUB -/

/-- The model gives SUB and ADD one meaning (R131). -/
theorem exec_sub_eq_exec_add (rd rs1 rs2 : Reg) (s : State) :
    exec (.sub rd rs1 rs2) s = exec (.add rd rs1 rs2) s := rfl

/-- Settles O32: SUB has a word of its own and the outcome of ADD. -/
theorem subWritesXor : Obligations.SubWritesXor := by
  intro s rd rs1 rs2
  refine ⟨decode_ok_iff_of_wellFormed rfl, ?_⟩
  rw [exec_sub_eq_exec_add]
  exact (addWritesXor s rd rs1 rs2).2

/-! ### The order of the operands -/

/-- The operands exchanged meet the same check: the operands read come exchanged, an error is the same. -/
theorem readSameWidth_swap (rs1 rs2 : Reg) (s : State) :
    readSameWidth rs2 rs1 s = (readSameWidth rs1 rs2 s).map Prod.swap := by
  cases h : readSameWidth rs1 rs2 s with
  | ok ab =>
    obtain ⟨ha, hb, hw⟩ := readSameWidth_ok.1 h
    exact readSameWidth_ok.2 ⟨hb, ha, hw.symm⟩
  | error k =>
    refine readSameWidth_error.2 ?_
    rcases readSameWidth_error.1 h with ⟨he, hk⟩ | ⟨⟨a, b, ha, hb, hw⟩, hk⟩
    · exact .inl ⟨he.symm, hk⟩
    · exact .inr ⟨⟨b, a, hb, ha, hw.symm⟩, hk⟩

@[simp] theorem Element.sum_swap_value (ab : Element × Element) :
    (Element.sum ab.swap).value = (Element.sum ab).value := BitVec.xor_comm _ _

/-- The response holds the width and the value of the sum, not its polynomial copy, which is the first
operand's. -/
theorem finish_add_swap_response (rd rs1 rs2 : Reg) (s : State) :
    (finish (effect (.add rd rs2 rs1) s) s).response =
      (finish (effect (.add rd rs1 rs2) s) s).response := by
  rw [effect, effect, xorResult_eq, xorResult_eq, readSameWidth_swap rs1 rs2]
  cases h : readSameWidth rs1 rs2 s with
  | error k => rfl
  | ok ab =>
    obtain ⟨-, -, hw⟩ := readSameWidth_ok.1 h
    have hwidth : (Element.sum ab.swap).width = (Element.sum ab).width := hw.symm
    simp [Except.map, hwidth]

/-- Settles O33: SUB has the outcome of ADD, and exchanging the operands of ADD does not reach its response. -/
theorem addSubAgreeAndCommute : Obligations.AddSubAgreeAndCommute := by
  intro s rd rs1 rs2
  refine ⟨exec_sub_eq_exec_add rd rs1 rs2 s, fun t u ht hu => ?_⟩
  obtain rfl := exec_next.1 ht
  obtain rfl := exec_next.1 hu
  exact (finish_add_swap_response rd rs1 rs2 s).symm

end Sys2Proof.Machine
end

section
/-! SUPPORT. Reduction modulo `x^w + p` (10_state.md R21; 40_bitpolynomial.md R99): what GF(2)[x]/(P) is in this
model. The rules here are those of a quotient ring, and hold for every p. -/

namespace Sys2Proof.Machine

/-- The remainder of a polynomial by the effective modulus (R21, R99). -/
def residue (w p a : Nat) : Nat := (pdivmod a (effectiveModulus w p)).2

section
variable {w p : Nat} (hp : p < 2 ^ w)
include hp

theorem residue_lt (a : Nat) : residue w p a < 2 ^ w := by
  have h := (pdivmod_spec a (effectiveModulus_ne_zero w p)).2
  rwa [deg_effectiveModulus hp] at h

/-- A w-bit value that differs from a by a multiple of the modulus is the residue of a. -/
theorem residue_eq {a q r : Nat} (h : a = clmul q (effectiveModulus w p) ^^^ r) (hr : r < 2 ^ w) :
    residue w p a = r := by
  have hr' : r < 2 ^ deg (effectiveModulus w p) := by rwa [deg_effectiveModulus hp]
  rw [residue, pdivmod_unique (effectiveModulus_ne_zero w p) h hr']

theorem residue_of_lt {a : Nat} (h : a < 2 ^ w) : residue w p a = a :=
  residue_eq hp (q := 0) (by simp) h

theorem residue_zero : residue w p 0 = 0 := residue_of_lt hp (Nat.two_pow_pos w)

theorem residue_multiple (q : Nat) : residue w p (clmul q (effectiveModulus w p)) = 0 :=
  residue_eq hp (Nat.xor_zero _).symm (Nat.two_pow_pos w)

theorem residue_xor (a b : Nat) : residue w p (a ^^^ b) = residue w p a ^^^ residue w p b := by
  have ha := (pdivmod_spec a (effectiveModulus_ne_zero w p)).1
  have hb := (pdivmod_spec b (effectiveModulus_ne_zero w p)).1
  refine residue_eq hp (q := (pdivmod a (effectiveModulus w p)).1 ^^^ (pdivmod b (effectiveModulus w p)).1)
    ?_ (Nat.xor_lt_two_pow (residue_lt hp a) (residue_lt hp b))
  conv_lhs => rw [ha, hb]
  rw [clmul_xor_left]
  simp only [residue, Nat.xor_assoc, Nat.xor_left_comm]

/-- A factor may be reduced before the product is. -/
theorem residue_clmul_right (a b : Nat) :
    residue w p (clmul a (residue w p b)) = residue w p (clmul a b) := by
  have hb := (pdivmod_spec b (effectiveModulus_ne_zero w p)).1
  conv_rhs => rw [hb]
  rw [clmul_xor_right, residue_xor hp, ← clmul_assoc, residue_multiple hp, Nat.zero_xor]
  rfl

theorem residue_clmul_left (a b : Nat) :
    residue w p (clmul (residue w p a) b) = residue w p (clmul a b) := by
  rw [clmul_comm, residue_clmul_right hp, clmul_comm]

end

/-- A value of one bit more than w is its x^w term and its truncation. -/
theorem eq_top_xor_mod {a w : Nat} (h : a < 2 ^ (w + 1)) :
    a = (if a.testBit w then 2 ^ w else 0) ^^^ a % 2 ^ w := by
  apply Nat.eq_of_testBit_eq
  intro i
  rw [Nat.testBit_xor, Nat.testBit_mod_two_pow]
  rcases Nat.lt_trichotomy i w with hi | rfl | hi
  · cases a.testBit w <;> simp [hi, hi.ne']
  · cases a.testBit i <;> simp
  · rw [testBit_of_lt h hi]
    cases a.testBit w <;> simp [hi.ne, hi.not_gt]

/-- The x^w term and the terms below it do not meet. -/
theorem effectiveModulus_eq_xor {w p : Nat} (hp : p < 2 ^ w) : effectiveModulus w p = 2 ^ w ^^^ p := by
  have top : (2 ^ w + p).testBit w = true := by
    rw [Nat.testBit_two_pow_add_eq, testBit_of_lt hp le_rfl]; rfl
  have h := eq_top_xor_mod (a := 2 ^ w + p) (w := w) (by rw [pow_succ]; omega)
  rwa [top, if_pos rfl, Nat.add_mod_left, Nat.mod_eq_of_lt hp] at h

end Sys2Proof.Machine
end

section
/-! The multiplier (43_mul.md): `MULCORE` is the product reduced modulo `x^w + p` (R142), from which its laws
follow (R143), and MUL writes it (R140). -/

namespace Sys2Proof.Machine

/-! ### The loop (R141) -/

/-- The `n + 1` bits of a from bit i on are those after bit i, doubled, and bit i. -/
theorem shiftRight_mod_two_pow_succ (a i n : Nat) :
    (a >>> i) % 2 ^ (n + 1) =
      ((a >>> (i + 1)) % 2 ^ n) <<< 1 ^^^ (if a.testBit i then 1 else 0) := by
  apply Nat.eq_of_testBit_eq
  intro j
  rw [Nat.testBit_xor, Nat.testBit_mod_two_pow, Nat.testBit_shiftRight, Nat.testBit_shiftLeft]
  cases j with
  | zero => cases a.testBit i <;> simp
  | succ j =>
    have low : (if a.testBit i then 1 else 0).testBit (j + 1) = false :=
      testBit_of_lt (n := 1) (by split <;> decide) (by omega)
    simp [low, Nat.add_comm, Nat.add_left_comm]

section
variable {w p : Nat} (hp : p < 2 ^ w)
include hp

/-- One doubling is multiplication by x: the x^w term, when it is set, is taken off with the modulus. -/
theorem doubleFold_eq_residue {d : Nat} (hd : d < 2 ^ w) : doubleFold w p d = residue w p (d <<< 1) := by
  have top : (d <<< 1).testBit w = d.testBit (w - 1) := by
    cases w with
    | zero =>
      obtain rfl : d = 0 := by omega
      rfl
    | succ w => simp [Nat.testBit_shiftLeft]
  have parts := eq_top_xor_mod (a := d <<< 1) (w := w) (by rw [Nat.shiftLeft_eq, pow_succ]; omega)
  rw [top] at parts
  refine (residue_eq hp (q := if d.testBit (w - 1) then 1 else 0) ?_ (doubleFold_lt hp d)).symm
  unfold doubleFold
  cases h : d.testBit (w - 1) with
  | false => simpa [h] using parts
  | true =>
    rw [h, if_pos rfl] at parts
    rw [if_pos rfl, if_pos rfl, clmul_one_left, effectiveModulus_eq_xor hp]
    conv_lhs => rw [parts]
    simp [Nat.xor_comm, Nat.xor_left_comm]

/-- `n` passes from bit i on add the product of d by bits i to i+n-1 of a, reduced. -/
theorem mulcoreLoop_eq_residue (a n i acc : Nat) {d : Nat} (hd : d < 2 ^ w) :
    mulcoreLoop a w p n i acc d = acc ^^^ residue w p (clmul ((a >>> i) % 2 ^ n) d) := by
  induction n generalizing i acc d with
  | zero => simp [mulcoreLoop, Nat.mod_one, residue_zero hp]
  | succ n ih =>
    have pass : residue w p (clmul ((a >>> i) % 2 ^ (n + 1)) d) =
        (if a.testBit i then d else 0) ^^^
          residue w p (clmul ((a >>> (i + 1)) % 2 ^ n) (doubleFold w p d)) := by
      rw [doubleFold_eq_residue hp hd, residue_clmul_right hp, shiftRight_mod_two_pow_succ,
        clmul_xor_left, residue_xor hp, clmul_shiftLeft_left, clmul_shiftLeft_right, Nat.xor_comm]
      congr 1
      split
      · rw [clmul_one_left, residue_of_lt hp hd]
      · rw [clmul_zero_left, residue_zero hp]
    rw [mulcoreLoop, ih (i + 1) _ (doubleFold_lt hp d), pass, ← Nat.xor_assoc]
    congr 1
    split
    · rfl
    · exact (Nat.xor_zero acc).symm

theorem mulcore_eq_residue {a b : Nat} (ha : a < 2 ^ w) (hb : b < 2 ^ w) :
    mulcore a b w p = residue w p (clmul a b) := by
  rw [mulcore, mulcoreLoop_eq_residue hp a w 0 0 hb, Nat.shiftRight_zero, Nat.mod_eq_of_lt ha, Nat.zero_xor]

end

/-- Settles O50: the doubled copy stays the residue of b times a power of x, so the loop adds up the residue of
the product. -/
theorem mulcoreIsReducedProduct : Obligations.MulcoreIsReducedProduct :=
  fun _ _ _ _ ha hb hp => mulcore_eq_residue hp ha hb

/-! ### The laws (R143) -/

section
variable {w p : Nat} (hp : p < 2 ^ w) {a b c : Nat} (ha : a < 2 ^ w)
include hp ha

theorem mulcore_comm (hb : b < 2 ^ w) : mulcore a b w p = mulcore b a w p := by
  rw [mulcore_eq_residue hp ha hb, mulcore_eq_residue hp hb ha, clmul_comm]

theorem mulcore_assoc (hb : b < 2 ^ w) (hc : c < 2 ^ w) :
    mulcore (mulcore a b w p) c w p = mulcore a (mulcore b c w p) w p := by
  calc mulcore (mulcore a b w p) c w p
      = residue w p (clmul (residue w p (clmul a b)) c) := by
        rw [mulcore_eq_residue hp (mulcore_lt a hb hp) hc, mulcore_eq_residue hp ha hb]
    _ = residue w p (clmul a (residue w p (clmul b c))) := by
        rw [residue_clmul_left hp, residue_clmul_right hp, clmul_assoc]
    _ = mulcore a (mulcore b c w p) w p := by
        rw [mulcore_eq_residue hp ha (mulcore_lt b hc hp), mulcore_eq_residue hp hb hc]

theorem mulcore_xor_right (hb : b < 2 ^ w) (hc : c < 2 ^ w) :
    mulcore a (b ^^^ c) w p = mulcore a b w p ^^^ mulcore a c w p := by
  rw [mulcore_eq_residue hp ha (Nat.xor_lt_two_pow hb hc), mulcore_eq_residue hp ha hb,
    mulcore_eq_residue hp ha hc, clmul_xor_right, residue_xor hp]

theorem mulcore_one_right (hw : 1 ≤ w) : mulcore a 1 w p = a := by
  rw [mulcore_eq_residue hp ha (Nat.one_lt_two_pow (by omega)), clmul_one_right, residue_of_lt hp ha]

theorem mulcore_zero_right : mulcore a 0 w p = 0 := by
  rw [mulcore_eq_residue hp ha (Nat.two_pow_pos w), clmul_zero_right, residue_zero hp]

end

/-- Settles O51: the laws of CLMUL, carried through the reduction. -/
theorem mulcoreRingLaws : Obligations.MulcoreRingLaws :=
  fun _ _ _ _ _ hw ha hb hc hp =>
    ⟨mulcore_comm hp ha hb, mulcore_assoc hp ha hb hc, mulcore_xor_right hp ha hb hc,
      mulcore_one_right hp ha hw, mulcore_zero_right hp ha⟩

/-! ### Fields (R143) -/

/-- Modulo an irreducible polynomial a product with a non-zero residue survives every non-zero factor of lower
degree: the remainder r of the modulus by a factor a is a lower factor, with `r * b = q * (a * b)` modulo P, and
is not zero, a being no factor of the modulus. -/
theorem residue_clmul_ne_zero {w p a b : Nat} (hp : p < 2 ^ w) (hirr : Irreducible w p) (ha : a ≠ 0)
    (haw : a < 2 ^ w) (hb : residue w p b ≠ 0) : residue w p (clmul a b) ≠ 0 := by
  induction a using Nat.strong_induction_on with
  | _ a ih =>
    intro hab
    obtain ⟨hdiv, hlt⟩ := pdivmod_spec (effectiveModulus w p) ha
    generalize (pdivmod (effectiveModulus w p) a).1 = q at hdiv
    generalize (pdivmod (effectiveModulus w p) a).2 = r at hdiv hlt
    have hra : r < a := hlt.trans_le (two_pow_deg_le ha)
    rcases Nat.eq_zero_or_pos (deg a) with h0 | hpos
    · have h2 : a < 2 ^ (deg a + 1) := lt_two_pow_deg_succ a
      rw [h0] at h2
      obtain rfl : a = 1 := by omega
      rw [clmul_one_left] at hab
      exact hb hab
    · have hr : r ≠ 0 := by
        rintro rfl
        rw [Nat.xor_zero, clmul_comm] at hdiv
        exact hirr a q hdiv.symm ⟨hpos, deg_lt_of_lt ha haw⟩
      have hqab : residue w p (clmul (clmul q a) b) = 0 := by
        rw [clmul_assoc, ← residue_clmul_right hp, hab, clmul_zero_right, residue_zero hp]
      have hrb : residue w p (clmul (effectiveModulus w p) b) = 0 := by
        rw [clmul_comm, residue_multiple hp]
      rw [hdiv, clmul_xor_left, residue_xor hp, hqab, Nat.zero_xor] at hrb
      exact ih r hra hr (hra.trans haw) hrb

/-- Settles O52: a non-zero element is its own residue, and a non-zero factor keeps it from being a multiple of
the modulus. -/
theorem noZeroDivisorsInField : Obligations.NoZeroDivisorsInField := by
  intro a b w p ha hb hp hirr ha0 hb0
  rw [mulcore_eq_residue hp ha hb]
  exact residue_clmul_ne_zero hp hirr ha0 ha (by rwa [residue_of_lt hp hb])

/-! ### MUL (R140) -/

/-- A value of the width of a legal element is held whole: the width is at most 32 (10_state.md R30). -/
theorem Element.Fits.withValue_toNat {e : Element} (he : e.Fits) {v : Nat} (hv : v < 2 ^ e.width.toNat) :
    (e.withValue v).value.toNat = v := by
  obtain ⟨-, hi, -, -⟩ := he
  have hlt : v < 2 ^ 32 := hv.trans_le (Nat.pow_le_pow_right (by decide) hi)
  exact (BitVec.toNat_ofNat v 32).trans (Nat.mod_eq_of_lt hlt)

/-- A command that writes a w-bit value over a legal operand's answers the value. -/
theorem exec_writes_withValue {i : Instr} {s : State} {rd : Reg} {e : Element} {v : Nat}
    (h : effect i s = .ok (.write rd (e.withValue v))) (he : e.Fits) (hv : v < 2 ^ e.width.toNat) :
    ∃ t, exec i s = .next t ∧ Writes s t rd (e.withValue v) ∧ Ends s t (rspNumber 0 e.width.toNat v) := by
  have := exec_writes h
  rwa [he.withValue_toNat hv] at this

section
variable {s : State} {rs1 rs2 : Reg}

theorem effect_mul_of_sameField {a b : Element} (ha : s.reg rs1 = some a) (hb : s.reg rs2 = some b)
    (hw : a.width = b.width) (hp : a.poly = b.poly) (rd : Reg) :
    effect (.mul rd rs1 rs2) s = .ok (.write rd (Element.product (a, b))) := by
  rw [effect, mulResult_eq, (readSameField_ok (ab := (a, b))).2 ⟨ha, hb, hw, hp⟩]; rfl

theorem effect_mul_of_empty (h : s.reg rs1 = none ∨ s.reg rs2 = none) (rd : Reg) :
    effect (.mul rd rs1 rs2) s = .error .emptyRegister := by
  rw [effect, mulResult_eq, readSameField_error.2 (.inl ⟨h, rfl⟩)]; rfl

theorem effect_mul_of_field_ne {a b : Element} (ha : s.reg rs1 = some a) (hb : s.reg rs2 = some b)
    (h : ¬ (a.width = b.width ∧ a.poly = b.poly)) (rd : Reg) :
    effect (.mul rd rs1 rs2) s = .error .incompatibleOperands := by
  rw [effect, mulResult_eq, readSameField_error.2 (.inr ⟨⟨a, b, ha, hb, h⟩, rfl⟩)]; rfl

end

/-- Settles O34: the sources hold elements of one field, whose product fits their width, or one is empty, or the
fields differ. -/
theorem mulWritesProduct : Obligations.MulWritesProduct := by
  intro s rd rs1 rs2 hs
  refine ⟨decode_ok_iff_of_wellFormed rfl, fun a b ha hb hw hp => ?_,
    fun h => exec_raises (effect_mul_of_empty h rd) rfl,
    fun a b ha hb h => exec_raises (effect_mul_of_field_ne ha hb h rd) rfl⟩
  have hpair : s.MayHoldPair (a, b) := ⟨hs.mayHold ha, hs.mayHold hb, hw⟩
  have hfits := hs.regs rs1 a ha
  have hv : mulcore a.value.toNat b.value.toNat a.width.toNat a.poly.toNat < 2 ^ a.width.toNat :=
    have ⟨_, _, _, hpoly⟩ := hfits
    mulcore_lt _ hpair.snd_lt hpoly
  obtain ⟨t, ht, hwrites, hends⟩ :=
    exec_writes_withValue (effect_mul_of_sameField ha hb hw hp rd) hfits hv
  exact ⟨t, _, rfl, ht, hwrites, hv, hends⟩

end Sys2Proof.Machine
end

section
/-! Divisors in GF(2)[x] (45_gcd_bezout.md R167): the multiples of d are closed under XOR and CLMUL, and so are the
combinations `u * s + v * t`. A gcd is a common divisor that is a combination; two polynomials with the same
combinations have the same gcd, which is what every pass of BGCD and of the Bezout table rests on. -/

namespace Sys2Proof.Machine

/-! ### Divisibility -/

section
variable {d a b c : Nat}

theorem PolyDivides.xor (ha : PolyDivides d a) (hb : PolyDivides d b) : PolyDivides d (a ^^^ b) := by
  obtain ⟨x, rfl⟩ := ha
  obtain ⟨y, rfl⟩ := hb
  exact ⟨x ^^^ y, clmul_xor_right d x y⟩

theorem PolyDivides.clmul (h : PolyDivides d a) (c : Nat) : PolyDivides d (clmul a c) := by
  obtain ⟨x, rfl⟩ := h
  exact ⟨Machine.clmul x c, (clmul_assoc d x c).symm⟩

theorem polyDivides_refl (a : Nat) : PolyDivides a a := ⟨1, clmul_one_right a⟩

theorem polyDivides_zero (d : Nat) : PolyDivides d 0 := ⟨0, clmul_zero_right d⟩

theorem PolyDivides.shiftLeft (h : PolyDivides d a) (k : Nat) : PolyDivides (d <<< k) (a <<< k) := by
  obtain ⟨x, rfl⟩ := h
  exact ⟨x, clmul_shiftLeft_left d x k⟩

theorem PolyDivides.ne_zero (h : PolyDivides d a) (ha : a ≠ 0) : d ≠ 0 := by
  obtain ⟨x, rfl⟩ := h
  rintro rfl
  exact ha (clmul_zero_left x)

theorem PolyDivides.deg_le (h : PolyDivides d a) (ha : a ≠ 0) : deg d ≤ deg a := by
  have hd := h.ne_zero ha
  obtain ⟨x, rfl⟩ := h
  have hx : x ≠ 0 := fun e => ha (by rw [e, clmul_zero_right])
  rw [(deg_clmul hd hx).2]
  exact Nat.le_add_right _ _

theorem eq_one_of_deg_eq_zero (ha : a ≠ 0) (h : deg a = 0) : a = 1 := by
  have hlt := lt_two_pow_deg_succ a
  rw [h] at hlt
  omega

/-- The only unit of GF(2)[x] is 1. -/
theorem PolyDivides.antisymm (h : PolyDivides d a) (h' : PolyDivides a d) : d = a := by
  by_cases ha : a = 0
  · obtain ⟨y, rfl⟩ := h'
    rw [ha, clmul_zero_left]
  · have hd := h.ne_zero ha
    have hle := h'.deg_le hd
    obtain ⟨x, rfl⟩ := h
    have hx : x ≠ 0 := fun e => ha (by rw [e, clmul_zero_right])
    have hdeg := (deg_clmul hd hx).2
    rw [eq_one_of_deg_eq_zero hx (by omega), clmul_one_right]

end

/-! ### Combinations -/

/-- g is a combination of u and v: `u * s + v * t` for some s and t. -/
def PolyCombination (u v g : Nat) : Prop := ∃ s t, clmul u s ^^^ clmul v t = g

section
variable {u v u' v' g h d : Nat}

theorem polyCombination_left (u v : Nat) : PolyCombination u v u := ⟨1, 0, by simp⟩

theorem polyCombination_right (u v : Nat) : PolyCombination u v v := ⟨0, 1, by simp⟩

theorem PolyCombination.xor (hg : PolyCombination u v g) (hh : PolyCombination u v h) :
    PolyCombination u v (g ^^^ h) := by
  obtain ⟨s, t, rfl⟩ := hg
  obtain ⟨s', t', rfl⟩ := hh
  refine ⟨s ^^^ s', t ^^^ t', ?_⟩
  rw [clmul_xor_right, clmul_xor_right]
  simp only [Nat.xor_assoc, Nat.xor_left_comm]

theorem PolyCombination.clmul (hg : PolyCombination u v g) (c : Nat) :
    PolyCombination u v (clmul g c) := by
  obtain ⟨s, t, rfl⟩ := hg
  refine ⟨Machine.clmul s c, Machine.clmul t c, ?_⟩
  rw [clmul_xor_left, clmul_assoc, clmul_assoc]

theorem PolyCombination.symm (hg : PolyCombination u v g) : PolyCombination v u g := by
  obtain ⟨s, t, rfl⟩ := hg
  exact ⟨t, s, Nat.xor_comm _ _⟩

theorem PolyCombination.shiftLeft (hg : PolyCombination u v g) (k : Nat) :
    PolyCombination (u <<< k) (v <<< k) (g <<< k) := by
  obtain ⟨s, t, rfl⟩ := hg
  refine ⟨s, t, ?_⟩
  rw [clmul_shiftLeft_left, clmul_shiftLeft_left, Nat.shiftLeft_xor_distrib]

theorem PolyCombination.trans (hu : PolyCombination u' v' u) (hv : PolyCombination u' v' v)
    (hg : PolyCombination u v g) : PolyCombination u' v' g := by
  obtain ⟨s, t, rfl⟩ := hg
  exact (hu.clmul s).xor (hv.clmul t)

/-- A common divisor divides every combination. -/
theorem PolyCombination.polyDivides (hg : PolyCombination u v g) (hu : PolyDivides d u)
    (hv : PolyDivides d v) : PolyDivides d g := by
  obtain ⟨s, t, rfl⟩ := hg
  exact (hu.clmul s).xor (hv.clmul t)

/-! ### The greatest common divisor -/

/-- g is the gcd of u and v: a common divisor that is a combination of them. -/
structure PolyGcd (u v g : Nat) : Prop where
  dvd_left : PolyDivides g u
  dvd_right : PolyDivides g v
  combination : PolyCombination u v g

/-- Every common divisor divides the gcd. -/
theorem PolyGcd.greatest (hg : PolyGcd u v g) (hu : PolyDivides d u) (hv : PolyDivides d v) :
    PolyDivides d g :=
  hg.combination.polyDivides hu hv

theorem PolyGcd.unique (hg : PolyGcd u v g) (hh : PolyGcd u v h) : g = h :=
  (hh.greatest hg.dvd_left hg.dvd_right).antisymm (hg.greatest hh.dvd_left hh.dvd_right)

theorem PolyGcd.symm (hg : PolyGcd u v g) : PolyGcd v u g :=
  ⟨hg.dvd_right, hg.dvd_left, hg.combination.symm⟩

theorem polyGcd_of_right_eq_zero (hv : v = 0) : PolyGcd u v u :=
  ⟨polyDivides_refl u, hv ▸ polyDivides_zero u, polyCombination_left u v⟩

theorem polyGcd_self (u : Nat) : PolyGcd u u u :=
  ⟨polyDivides_refl u, polyDivides_refl u, polyCombination_left u u⟩

/-- Two pairs that are combinations of each other have the same gcd. -/
theorem PolyGcd.of_combinations (hg : PolyGcd u v g) (hu : PolyCombination u' v' u)
    (hv : PolyCombination u' v' v) (hu' : PolyCombination u v u') (hv' : PolyCombination u v v') :
    PolyGcd u' v' g where
  dvd_left := hu'.polyDivides hg.dvd_left hg.dvd_right
  dvd_right := hv'.polyDivides hg.dvd_left hg.dvd_right
  combination := hu.trans hv hg.combination

/-- A pass of BGCD: the XOR of the operands in place of one of them (R166). -/
theorem PolyGcd.of_xor (hg : PolyGcd u (v ^^^ u) g) : PolyGcd u v g :=
  have hv : PolyCombination u (v ^^^ u) v := ⟨1, 1, by simp [Nat.xor_comm]⟩
  have hx : PolyCombination u v (v ^^^ u) := ⟨1, 1, by simp [Nat.xor_comm]⟩
  hg.of_combinations (polyCombination_left u v) hx (polyCombination_left u _) hv

/-- A row of the Bezout table: the remainder in place of the dividend (R170). -/
theorem PolyGcd.of_remainder {q r : Nat} (hg : PolyGcd v r g) (hdiv : u = clmul q v ^^^ r) :
    PolyGcd u v g := by
  have hu : PolyCombination v r u := ⟨q, 1, by rw [hdiv, clmul_comm v q, clmul_one_right]⟩
  have hr : PolyCombination u v r := ⟨1, q, by
    rw [hdiv, clmul_comm v q, clmul_one_right, Nat.xor_comm, xor_cancel_left]⟩
  exact hg.of_combinations (polyCombination_right u v) hr hu (polyCombination_left v r)

/-- An odd polynomial has no factor x: with `u = 1 + x * (u / 2)`, `v = u * v + (v * x) * (u / 2)`. -/
theorem polyCombination_of_odd (hu : u % 2 = 1) (v : Nat) : PolyCombination u (v <<< 1) v := by
  refine ⟨v, u / 2, ?_⟩
  have hodd : u ^^^ (u / 2) <<< 1 = 1 := by
    have := eq_shiftLeft_xor_bit u
    rw [hu] at this
    conv_lhs => lhs; rw [this]
    rw [Nat.xor_comm, xor_cancel_left]
  calc clmul u v ^^^ clmul (v <<< 1) (u / 2)
      = clmul (u ^^^ (u / 2) <<< 1) v := by
        rw [clmul_xor_left, clmul_shiftLeft_left, clmul_shiftLeft_left, clmul_comm v]
    _ = v := by rw [hodd, clmul_one_left]

/-- Factors x of one operand do not reach the gcd when the other is odd (R166: the trailing zeros stripped). -/
theorem PolyGcd.shiftLeft_right (hg : PolyGcd u v g) (hu : u % 2 = 1) (k : Nat) :
    PolyGcd u (v <<< k) g := by
  induction k with
  | zero => exact hg
  | succ k ih =>
    rw [Nat.shiftLeft_add]
    have hx : PolyCombination u (v <<< k) (v <<< k <<< 1) := by
      have := (polyCombination_right u (v <<< k)).clmul (1 <<< 1)
      rwa [clmul_shiftLeft_right, clmul_one_right] at this
    exact ih.of_combinations (polyCombination_left u _) (polyCombination_of_odd hu _)
      (polyCombination_left u _) hx

/-- Common factors x come back at the end (R166: `u << k`). -/
theorem PolyGcd.shiftLeft (hg : PolyGcd u v g) (k : Nat) : PolyGcd (u <<< k) (v <<< k) (g <<< k) :=
  ⟨hg.dvd_left.shiftLeft k, hg.dvd_right.shiftLeft k, hg.combination.shiftLeft k⟩

end

end Sys2Proof.Machine
end

section
/-! The inverse solver (45_gcd_bezout.md): BGCD and the second-to-last row of the Bezout table are both the gcd
(R167, R173), and the rows of the table keep `u * s + v * t = r` (R171). -/

namespace Sys2Proof.Machine

/-! ### BGCD (R166, R167) -/

/-- Stripping the trailing zeros drops nothing else (40_bitpolynomial.md R95). -/
theorem shiftRight_ctz_shiftLeft (a : Nat) : (a >>> ctz a) <<< ctz a = a := by
  apply Nat.eq_of_testBit_eq
  intro i
  rw [Nat.testBit_shiftLeft, Nat.testBit_shiftRight]
  by_cases hi : ctz a ≤ i
  · simp [hi]
  · simp [hi, testBit_of_lt_ctz (not_le.1 hi)]

theorem deg_shiftRight_ctz {a : Nat} (ha : a ≠ 0) : deg (a >>> ctz a) + ctz a = deg a := by
  have hs : a >>> ctz a ≠ 0 := fun e => ha (by rw [← shiftRight_ctz_shiftLeft a, e, Nat.zero_shiftLeft])
  rw [← deg_shiftLeft hs, shiftRight_ctz_shiftLeft]

section
variable {u v : Nat} (k fuel : Nat)

/-- The loop orders its operands first (R166). -/
theorem bgcdLoop_swap (h : v < u) : bgcdLoop k (fuel + 1) u v = bgcdLoop k (fuel + 1) v u := by
  simp [bgcdLoop, h, h.le.not_gt]

theorem bgcdLoop_of_le (h : u ≤ v) :
    bgcdLoop k (fuel + 1) u v =
      if v ^^^ u = 0 then u <<< k else bgcdLoop k fuel u ((v ^^^ u) >>> ctz (v ^^^ u)) := by
  simp [bgcdLoop, h.not_gt]

end

/-- The XOR of two different odd operands is even, so that a pass lowers the sum of the degrees (R167(b)). -/
theorem deg_strip_lt {u v : Nat} (hu : u % 2 = 1) (hv : v % 2 = 1) (huv : u ≤ v) (hx : v ^^^ u ≠ 0) :
    deg ((v ^^^ u) >>> ctz (v ^^^ u)) < deg v := by
  have hle : deg (v ^^^ u) ≤ deg v :=
    Nat.lt_succ_iff.1 (deg_lt_of_lt hx (Nat.xor_lt_two_pow (lt_two_pow_deg_succ v)
      (huv.trans_lt (lt_two_pow_deg_succ v))))
  have heven : (v ^^^ u).testBit 0 = false := by
    rw [Nat.testBit_xor, Nat.testBit_zero, Nat.testBit_zero, hu, hv]; rfl
  have hctz : ctz (v ^^^ u) ≠ 0 := fun e => by
    have := testBit_ctz hx
    rw [e, heven] at this
    exact Bool.false_ne_true this
  have := deg_shiftRight_ctz hx
  omega

/-- The loop finds the gcd of two odd polynomials, within its bound, and shifts it back. -/
theorem bgcdLoop_polyGcd (k : Nat) {fuel u v : Nat} (hu : u % 2 = 1) (hv : v % 2 = 1)
    (hfuel : deg u + deg v < fuel) : ∃ g, bgcdLoop k fuel u v = g <<< k ∧ PolyGcd u v g := by
  induction fuel generalizing u v with
  | zero => omega
  | succ n ih =>
    wlog huv : u ≤ v generalizing u v
    · obtain ⟨g, hloop, hg⟩ := this hv hu (by omega) (le_of_not_ge huv)
      exact ⟨g, bgcdLoop_swap k n (not_le.1 huv) ▸ hloop, hg.symm⟩
    rw [bgcdLoop_of_le k n huv]
    by_cases hx : v ^^^ u = 0
    · obtain rfl := Nat.xor_eq_zero_iff.1 hx
      exact ⟨v, if_pos hx, polyGcd_self v⟩
    · have hlt := deg_strip_lt hu hv huv hx
      obtain ⟨g, hloop, hg⟩ := ih hu (shiftRight_ctz_odd hx) (by omega)
      have hxg := hg.shiftLeft_right hu (ctz (v ^^^ u))
      rw [shiftRight_ctz_shiftLeft] at hxg
      exact ⟨g, (if_neg hx).trans hloop, hxg.of_xor⟩

/-- The factors x of two polynomials whose odd parts are u and v: the gcd has the fewer of the two. -/
theorem PolyGcd.shiftLeft_min {u v g : Nat} (hg : PolyGcd u v g) (hu : u % 2 = 1) (hv : v % 2 = 1)
    (m n : Nat) : PolyGcd (u <<< m) (v <<< n) (g <<< min m n) := by
  wlog hmn : m ≤ n generalizing u v m n
  · rw [min_comm]
    exact (this hg.symm hv hu n m (le_of_not_ge hmn)).symm
  obtain ⟨d, rfl⟩ := Nat.exists_eq_add_of_le hmn
  rw [min_eq_left hmn, Nat.add_comm, Nat.shiftLeft_add]
  exact (hg.shiftLeft_right hu d).shiftLeft m

theorem bgcd_polyGcd (u v : Nat) : PolyGcd u v (bgcd u v) := by
  unfold bgcd
  by_cases hu : u = 0
  · rw [if_pos hu]
    exact (polyGcd_of_right_eq_zero hu).symm
  by_cases hv : v = 0
  · rw [if_neg hu, if_pos hv]
    exact polyGcd_of_right_eq_zero hv
  rw [if_neg hu, if_neg hv]
  have hdu := deg_shiftRight_ctz hu
  have hdv := deg_shiftRight_ctz hv
  obtain ⟨g, hloop, hg⟩ := bgcdLoop_polyGcd (min (ctz u) (ctz v)) (fuel := deg u + deg v + 1)
    (shiftRight_ctz_odd hu) (shiftRight_ctz_odd hv) (by omega)
  have := hg.shiftLeft_min (shiftRight_ctz_odd hu) (shiftRight_ctz_odd hv) (ctz u) (ctz v)
  rwa [shiftRight_ctz_shiftLeft, shiftRight_ctz_shiftLeft, ← hloop] at this

/-! ### The Bezout table (R170, R171) -/

/-- The row states its remainder as a combination of the table's operands (R171). -/
def BezoutRow.Balanced (u v : Nat) (row : BezoutRow) : Prop := clmul u row.s ^^^ clmul v row.t = row.r

theorem nextRow_balanced {u v : Nat} {prev cur : BezoutRow} (hprev : prev.Balanced u v)
    (hcur : cur.Balanced u v) (hc : cur.r ≠ 0) : (nextRow prev cur).Balanced u v := by
  have hdiv := (pdivmod_spec prev.r hc).1
  simp only [nextRow, BezoutRow.Balanced] at *
  generalize (pdivmod prev.r cur.r).1 = q at *
  generalize (pdivmod prev.r cur.r).2 = r at *
  calc clmul u (prev.s ^^^ clmul q cur.s) ^^^ clmul v (prev.t ^^^ clmul q cur.t)
      = (clmul u prev.s ^^^ clmul v prev.t) ^^^ clmul (clmul u cur.s ^^^ clmul v cur.t) q := by
        simp only [clmul_xor_right, clmul_xor_left, clmul_assoc, clmul_comm q, Nat.xor_assoc,
          Nat.xor_left_comm]
    _ = r := by rw [hprev, hcur, hdiv, clmul_comm q, Nat.xor_comm, xor_cancel_left]

theorem xeuclidLoop_balanced {u v : Nat} (fuel : Nat) {prev cur : BezoutRow} (hprev : prev.Balanced u v)
    (hcur : cur.Balanced u v) : ∀ row ∈ xeuclidLoop fuel prev cur, row.Balanced u v := by
  induction fuel generalizing prev cur with
  | zero => simp [xeuclidLoop, hprev, hcur]
  | succ n ih =>
    rw [xeuclidLoop]
    split
    · simp [hprev, hcur]
    · rename_i hc
      have hnext := nextRow_balanced hprev hcur hc
      exact List.forall_mem_cons.2 ⟨hprev, ih hcur hnext⟩

theorem xeuclid_balanced (u v : Nat) : ∀ row ∈ xeuclid u v, row.Balanced u v :=
  xeuclidLoop_balanced _ (by simp [BezoutRow.Balanced]) (by simp [BezoutRow.Balanced])

theorem secondToLast_mem {l : List BezoutRow} (h : 2 ≤ l.length) : secondToLast l ∈ l := by
  induction l with
  | nil => simp at h
  | cons a l ih =>
    by_cases hl : 2 ≤ l.length
    · rw [secondToLast_cons a hl]
      exact List.mem_cons_of_mem a (ih hl)
    · obtain ⟨b, rfl⟩ := List.length_eq_one_iff.1 (by simp at h; omega : l.length = 1)
      exact List.mem_cons_self

/-- The remainders are those of Euclid's algorithm, so the last that is not zero is the gcd (R173). -/
theorem xeuclidLoop_polyGcd {fuel : Nat} {prev cur : BezoutRow} (h : cur.r < 2 ^ fuel) :
    PolyGcd prev.r cur.r (secondToLast (xeuclidLoop fuel prev cur)).r := by
  induction fuel generalizing prev cur with
  | zero => exact polyGcd_of_right_eq_zero (by omega)
  | succ n ih =>
    rw [xeuclidLoop]
    split
    · rename_i hc
      exact polyGcd_of_right_eq_zero hc
    · rename_i hc
      rw [secondToLast_cons _ (two_le_length_xeuclidLoop n _ _)]
      obtain ⟨hdiv, hr⟩ := pdivmod_spec prev.r hc
      have hdeg : deg cur.r ≤ n := Nat.lt_succ_iff.1 (deg_lt_of_lt hc h)
      have hnext : (nextRow prev cur).r < 2 ^ n := hr.trans_le (Nat.pow_le_pow_right (by decide) hdeg)
      exact (ih hnext).of_remainder hdiv

theorem xeuclid_polyGcd (u v : Nat) : PolyGcd u v (secondToLast (xeuclid u v)).r :=
  xeuclidLoop_polyGcd (prev := { index := 0, r := u, q := none, s := 1, t := 0 })
    (cur := { index := 1, r := v, q := none, s := 0, t := 1 }) (lt_two_pow_deg_succ v)

theorem bgcd_eq_secondToLast_r (u v : Nat) : bgcd u v = (secondToLast (xeuclid u v)).r :=
  (bgcd_polyGcd u v).unique (xeuclid_polyGcd u v)

end Sys2Proof.Machine
end

section
/-! Inversion and division (44_div_inv.md): `INVCORE` times its operand is the gcd with the modulus (R155), which in
a field is 1 (R154), and DIV and INV write what it gives (R150, R152). -/

namespace Sys2Proof.Machine

/-! ### INVCORE (R151, R155) -/

theorem one_le_width {b w : Nat} (hb : b < 2 ^ w) (h0 : b ≠ 0) : 1 ≤ w := by
  by_contra h
  obtain rfl : w = 0 := by omega
  omega

/-- A gcd with an irreducible modulus has degree 0, being no factor of degree 1 to w-1. -/
theorem bgcd_eq_one_of_irreducible {b w p : Nat} (hb : b < 2 ^ w) (h0 : b ≠ 0)
    (hirr : Irreducible w p) : bgcd b (effectiveModulus w p) = 1 := by
  have hgcd := bgcd_polyGcd b (effectiveModulus w p)
  have hdeg := (hgcd.dvd_left.deg_le h0).trans_lt (deg_lt_of_lt h0 hb)
  obtain ⟨c, hc⟩ := hgcd.dvd_right
  have hnot := hirr _ c hc
  exact eq_one_of_deg_eq_zero (hgcd.dvd_left.ne_zero h0) (by omega)

section
variable {b w p : Nat} (hp : p < 2 ^ w) (hb : b < 2 ^ w) (h0 : b ≠ 0)
include hp hb h0

theorem mulcore_invcore : mulcore b (invcore b w p) w p = bgcd b (effectiveModulus w p) := by
  have hrow := xeuclid_balanced b (effectiveModulus w p) _
    (secondToLast_mem (two_le_length_xeuclidLoop _ _ _))
  have hgcd := bgcd_polyGcd b (effectiveModulus w p)
  have hlt : bgcd b (effectiveModulus w p) < 2 ^ w :=
    lt_of_deg_lt (.inr ((hgcd.dvd_left.deg_le h0).trans_lt (deg_lt_of_lt h0 hb)))
  rw [mulcore_eq_residue hp hb (invcore_lt hb hp)]
  refine residue_eq hp (q := (secondToLast (xeuclid b (effectiveModulus w p))).t) ?_ hlt
  rw [bgcd_eq_secondToLast_r, ← hrow, clmul_comm _ (effectiveModulus w p), Nat.xor_comm,
    xor_cancel_right]
  rfl

theorem mulcore_invcore_of_irreducible (hirr : Irreducible w p) : mulcore b (invcore b w p) w p = 1 :=
  (mulcore_invcore hp hb h0).trans (bgcd_eq_one_of_irreducible hb h0 hirr)

/-- The inverse undoes a multiplication. -/
theorem mulcore_mulcore_invcore (hirr : Irreducible w p) {a : Nat} (ha : a < 2 ^ w) :
    mulcore (mulcore a b w p) (invcore b w p) w p = a := by
  rw [mulcore_assoc hp ha hb (invcore_lt hb hp), mulcore_invcore_of_irreducible hp hb h0 hirr,
    mulcore_one_right hp ha (one_le_width hb h0)]

/-- An element has at most one inverse. -/
theorem eq_invcore_of_mulcore_eq_one (hirr : Irreducible w p) {x : Nat} (hx : x < 2 ^ w)
    (h1 : mulcore b x w p = 1) : x = invcore b w p := by
  have hlt : invcore b w p < 2 ^ w := invcore_lt hb hp
  have hw := one_le_width hb h0
  calc x = mulcore (mulcore x b w p) (invcore b w p) w p :=
        (mulcore_mulcore_invcore hp hb h0 hirr hx).symm
    _ = mulcore 1 (invcore b w p) w p := by rw [mulcore_comm hp hx hb, h1]
    _ = invcore b w p := by
        rw [mulcore_comm hp (Nat.one_lt_two_pow (by omega)) hlt, mulcore_one_right hp hlt hw]

end

/-- Settles O55: on the second-to-last row `b * s` differs from the gcd by a multiple of the modulus. -/
theorem invcoreTimesOperandIsGcd : Obligations.InvcoreTimesOperandIsGcd :=
  fun _ _ _ h0 hb hp => mulcore_invcore hp hb h0

/-- Settles O56: the gcd is 1, and the inverse of the inverse is the one element whose product with it is 1. -/
theorem inverseLawInField : Obligations.InverseLawInField := by
  intro b w p h0 hb hp hirr
  have hone := mulcore_invcore_of_irreducible hp hb h0 hirr
  have hlt : invcore b w p < 2 ^ w := invcore_lt hb hp
  have hne : invcore b w p ≠ 0 := fun e => by
    rw [e, mulcore_zero_right hp hb] at hone
    exact absurd hone (by decide)
  refine ⟨hone, hne, ?_, fun x hx h1 => eq_invcore_of_mulcore_eq_one hp hb h0 hirr hx h1⟩
  exact (eq_invcore_of_mulcore_eq_one hp hlt hne hirr hb (mulcore_comm hp hlt hb ▸ hone)).symm

/-! ### DIV (R152) -/

section
variable {s : State} {rd rs1 rs2 : Reg} {a b : Element}

/-- The value DIV writes (R152). -/
def Element.quotientValue (a b : Element) : Nat :=
  mulcore a.value.toNat b.inverseValue a.width.toNat a.poly.toNat

theorem effect_div_of_sameField (ha : s.reg rs1 = some a) (hb : s.reg rs2 = some b)
    (hw : a.width = b.width) (hp : a.poly = b.poly) (rd : Reg) :
    effect (.div rd rs1 rs2) s = (Element.quotient (a, b)).map (.write rd) := by
  rw [effect, divResult_eq, (readSameField_ok (ab := (a, b))).2 ⟨ha, hb, hw, hp⟩]; rfl

theorem effect_div_of_empty (h : s.reg rs1 = none ∨ s.reg rs2 = none) (rd : Reg) :
    effect (.div rd rs1 rs2) s = .error .emptyRegister := by
  rw [effect, divResult_eq, readSameField_error.2 (.inl ⟨h, rfl⟩)]; rfl

theorem effect_div_of_field_ne (ha : s.reg rs1 = some a) (hb : s.reg rs2 = some b)
    (h : ¬ (a.width = b.width ∧ a.poly = b.poly)) (rd : Reg) :
    effect (.div rd rs1 rs2) s = .error .incompatibleOperands := by
  rw [effect, divResult_eq, readSameField_error.2 (.inr ⟨⟨a, b, ha, hb, h⟩, rfl⟩)]; rfl

theorem quotient_of_ne_zero (a : Element) (hb : b.value ≠ 0) :
    Element.quotient (a, b) = .ok (a.withValue (a.quotientValue b)) := if_neg (mt isZero_iff.1 hb)

theorem quotient_of_zero (a : Element) (hb : b.value = 0) :
    Element.quotient (a, b) = .error .divisionByZero := if_pos (isZero_iff.2 hb)

/-- DIV by an element that is not zero answers the quotient, whatever the gcd (R152, R155). -/
theorem exec_div_of_ne_zero (hs : s.Inv) (ha : s.reg rs1 = some a) (hb : s.reg rs2 = some b)
    (hw : a.width = b.width) (hp : a.poly = b.poly) (h0 : b.value ≠ 0) (rd : Reg) :
    a.quotientValue b < 2 ^ a.width.toNat ∧
      ∃ t, exec (.div rd rs1 rs2) s = .next t ∧ Writes s t rd (a.withValue (a.quotientValue b)) ∧
        Ends s t (rspNumber 0 a.width.toNat (a.quotientValue b)) := by
  have hfits := hs.regs rs1 a ha
  have hinv := (hs.regs rs2 b hb).inverseValue_lt
  rw [← hw] at hinv
  have hv : a.quotientValue b < 2 ^ a.width.toNat :=
    have ⟨_, _, _, hpoly⟩ := hfits
    mulcore_lt _ hinv hpoly
  have heff := effect_div_of_sameField ha hb hw hp rd
  rw [quotient_of_ne_zero a h0] at heff
  exact ⟨hv, exec_writes_withValue heff hfits hv⟩

end

/-- Settles O35: the sources hold elements of one field, the second not zero or zero, or one is empty, or the fields
differ. -/
theorem divWritesQuotient : Obligations.DivWritesQuotient := by
  intro s rd rs1 rs2 hs
  refine ⟨decode_ok_iff_of_wellFormed rfl, fun a b ha hb hw hp h0 => ?_,
    fun h => exec_raises (effect_div_of_empty h rd) rfl,
    fun a b ha hb h => exec_raises (effect_div_of_field_ne ha hb h rd) rfl,
    fun a b ha hb hw hp h0 => exec_raises (k := .divisionByZero) ?_ rfl⟩
  · obtain ⟨hv, t, ht, hwrites, hends⟩ := exec_div_of_ne_zero hs ha hb hw hp h0 rd
    exact ⟨t, _, ht, hwrites, hv, hends, fun _ => rfl⟩
  · rw [effect_div_of_sameField ha hb hw hp, quotient_of_zero a h0]; rfl

/-! ### INV (R150) -/

section
variable {s : State} {rs1 : Reg} {b : Element}

theorem effect_inv_of_some (hb : s.reg rs1 = some b) (rd : Reg) :
    effect (.inv rd rs1) s = (Element.inverse b).map (.write rd) := by
  rw [effect, invResult_eq, readSource_ok.2 hb]; rfl

theorem effect_inv_of_none (h : s.reg rs1 = none) (rd : Reg) :
    effect (.inv rd rs1) s = .error .emptyRegister := by
  rw [effect, invResult_eq, readSource_error.2 ⟨h, rfl⟩]; rfl

theorem inverse_of_ne_zero (hb : b.value ≠ 0) : Element.inverse b = .ok (b.withValue b.inverseValue) :=
  if_neg (mt isZero_iff.1 hb)

theorem inverse_of_zero (hb : b.value = 0) : Element.inverse b = .error .divisionByZero :=
  if_pos (isZero_iff.2 hb)

/-- INV of an element that is not zero answers INVCORE, whatever the gcd (R150, R155). -/
theorem exec_inv_of_ne_zero (hs : s.Inv) (hb : s.reg rs1 = some b) (h0 : b.value ≠ 0) (rd : Reg) :
    ∃ t, exec (.inv rd rs1) s = .next t ∧ Writes s t rd (b.withValue b.inverseValue) ∧
      Ends s t (rspNumber 0 b.width.toNat b.inverseValue) := by
  have hfits := hs.regs rs1 b hb
  have heff := effect_inv_of_some hb rd
  rw [inverse_of_ne_zero h0] at heff
  exact exec_writes_withValue heff hfits hfits.inverseValue_lt

end

/-- Settles O36: the source holds an element, not zero or zero, or is empty. -/
theorem invWritesInverse : Obligations.InvWritesInverse := by
  intro s rd rs1 hs
  refine ⟨decode_ok_iff_of_wellFormed rfl, fun b hb h0 => ?_,
    fun h => exec_raises (effect_inv_of_none h rd) rfl,
    fun b hb h0 => exec_raises (k := .divisionByZero) ?_ rfl⟩
  · obtain ⟨t, ht, hwrites, hends⟩ := exec_inv_of_ne_zero hs hb h0 rd
    exact ⟨t, _, ht, hwrites, (hs.regs rs1 b hb).inverseValue_lt, hends, fun _ => rfl⟩
  · rw [effect_inv_of_some hb, inverse_of_zero h0]; rfl

/-! ### No inverse, and a field (R154, R155) -/

theorem Element.value_toNat_ne_zero {e : Element} (h : e.value ≠ 0) : e.value.toNat ≠ 0 :=
  fun h0 => h (BitVec.eq_of_toNat_eq h0)

/-- Settles O37: neither command tests the gcd, and the product is the gcd. -/
theorem noInverseIsNoError : Obligations.NoInverseIsNoError := by
  intro s rd rs1 rs2 a b hs ha hb hw hp h0 hgcd
  obtain ⟨t, ht, -, hinv⟩ := exec_inv_of_ne_zero hs hb h0 rd
  obtain ⟨-, u, hu, -, hdiv⟩ := exec_div_of_ne_zero hs ha hb hw hp h0 rd
  have hfits := hs.regs rs2 b hb
  have hwidth : rspNumber 0 a.width.toNat (a.quotientValue b) =
      rspNumber 0 b.width.toNat (a.quotientValue b) := by rw [hw]
  refine ⟨t, u, _, rfl, hfits.inverseValue_lt, ht, hinv, hu, hwidth ▸ hdiv, ?_⟩
  obtain ⟨-, -, hv, hpoly⟩ := hfits
  rwa [mulcore_invcore hpoly hv (Element.value_toNat_ne_zero h0)]

/-- A product carries its first factor's field (43_mul.md R140). -/
theorem product_withValue (a b : Element) (v : Nat) :
    (Element.product (a, b)).withValue v = a.withValue v := rfl

@[simp] theorem Element.withValue_value (e : Element) : e.withValue e.value.toNat = e := by
  simp [Element.withValue]

/-- In a field the quotient of a product by its second factor is the first (R154). -/
theorem quotientValue_product {a b : Element} (ha : a.Fits) (hb : b.Fits) (hw : a.width = b.width)
    (hp : a.poly = b.poly) (hirr : Irreducible a.width.toNat a.poly.toNat) (h0 : b.value ≠ 0) :
    (Element.product (a, b)).quotientValue b = a.value.toNat := by
  have ⟨_, _, hv, hpoly⟩ := ha
  have hbv : b.value.toNat < 2 ^ a.width.toNat := hw ▸ have ⟨_, _, h, _⟩ := hb; h
  have hprod : (Element.product (a, b)).value.toNat =
      mulcore a.value.toNat b.value.toNat a.width.toNat a.poly.toNat :=
    ha.withValue_toNat (mulcore_lt _ hbv hpoly)
  have hinv : b.inverseValue = invcore b.value.toNat a.width.toNat a.poly.toNat := by
    rw [Element.inverseValue, hw, hp]
  calc (Element.product (a, b)).quotientValue b
      = mulcore (mulcore a.value.toNat b.value.toNat a.width.toNat a.poly.toNat)
          (invcore b.value.toNat a.width.toNat a.poly.toNat) a.width.toNat a.poly.toNat := by
        rw [← hprod, ← hinv]; rfl
    _ = a.value.toNat :=
        mulcore_mulcore_invcore hpoly hbv (Element.value_toNat_ne_zero h0) hirr hv

/-- Settles O57: the divisor is still in its register, and its inverse undoes the product. -/
theorem divisionUndoesMultiplication : Obligations.DivisionUndoesMultiplication := by
  intro s rd rs1 rs2 a b hs ha hb hw hp hirr h0 hne
  obtain ⟨t, ht, ⟨-, hprod, hothers⟩, -⟩ := exec_writes (effect_mul_of_sameField ha hb hw hp rd)
  have hdivisor : t.reg rs2 = some b := (hothers rs2 hne.symm).trans hb
  obtain ⟨-, u, hu, ⟨-, hquot, -⟩, -⟩ := exec_div_of_ne_zero (hs.exec ht) hprod hdivisor hw hp h0 rd
  refine ⟨t, u, ht, hu, ?_⟩
  rw [hquot, quotientValue_product (hs.regs rs1 a ha) (hs.regs rs2 b hb) hw hp hirr h0,
    product_withValue, a.withValue_value]

end Sys2Proof.Machine
end

section
/-! The Bezout table and the greatest common divisor (45_gcd_bezout.md): the rows of the table, one at a time, give
its shape (R172); GCD writes the `BGCD` of two values, which is the greatest common divisor that the table ends
with (R165, R167, R173). -/

namespace Sys2Proof.Machine

/-! ### The rows of the table (R170) -/

section
variable {prev cur : BezoutRow}

/-- A zero remainder ends the table. -/
theorem xeuclidLoop_of_eq_zero (fuel : Nat) (h : cur.r = 0) : xeuclidLoop fuel prev cur = [prev, cur] := by
  cases fuel with
  | zero => rfl
  | succ n => exact if_pos h

/-- A remainder that is not zero is divided by. -/
theorem xeuclidLoop_of_ne_zero (fuel : Nat) (h : cur.r ≠ 0) :
    xeuclidLoop (fuel + 1) prev cur = prev :: xeuclidLoop fuel cur (nextRow prev cur) := if_neg h

theorem xeuclidLoop_getElem?_zero (fuel : Nat) (prev cur : BezoutRow) :
    (xeuclidLoop fuel prev cur)[0]? = some prev := by
  by_cases h : cur.r = 0
  · rw [xeuclidLoop_of_eq_zero _ h]; rfl
  · cases fuel with
    | zero => rfl
    | succ n => rw [xeuclidLoop_of_ne_zero n h]; rfl

theorem xeuclidLoop_getElem?_one (fuel : Nat) (prev cur : BezoutRow) :
    (xeuclidLoop fuel prev cur)[1]? = some cur := by
  by_cases h : cur.r = 0
  · rw [xeuclidLoop_of_eq_zero _ h]; rfl
  · cases fuel with
    | zero => rfl
    | succ n => rw [xeuclidLoop_of_ne_zero n h, List.getElem?_cons_succ, xeuclidLoop_getElem?_zero]

/-- A pass adds one row. -/
theorem length_xeuclidLoop_le (fuel : Nat) (prev cur : BezoutRow) :
    (xeuclidLoop fuel prev cur).length ≤ fuel + 2 := by
  induction fuel generalizing prev cur with
  | zero => exact le_rfl
  | succ n ih =>
    by_cases h : cur.r = 0
    · rw [xeuclidLoop_of_eq_zero _ h]
      exact Nat.le_add_left 2 (n + 1)
    · rw [xeuclidLoop_of_ne_zero n h]
      exact Nat.succ_le_succ (ih cur (nextRow prev cur))

/-- A remainder has fewer bits than the one it is a remainder by (40_bitpolynomial.md R99). -/
theorem nextRow_r_lt {n : Nat} (hc : cur.r ≠ 0) (h : cur.r < 2 ^ (n + 1)) : (nextRow prev cur).r < 2 ^ n :=
  (pdivmod_spec prev.r hc).2.trans_le
    (Nat.pow_le_pow_right (by decide) (Nat.lt_succ_iff.1 (deg_lt_of_lt hc h)))

/-- The bound of the loop is enough for it to reach a zero remainder (R171). -/
theorem xeuclidLoop_getLast?_r {fuel : Nat} (h : cur.r < 2 ^ fuel) :
    ∃ last, (xeuclidLoop fuel prev cur).getLast? = some last ∧ last.r = 0 := by
  induction fuel generalizing prev cur with
  | zero => exact ⟨cur, rfl, Nat.lt_one_iff.1 h⟩
  | succ n ih =>
    by_cases hc : cur.r = 0
    · rw [xeuclidLoop_of_eq_zero _ hc]
      exact ⟨cur, rfl, hc⟩
    · obtain ⟨last, hlast, hr⟩ := ih (nextRow_r_lt (prev := prev) hc h)
      refine ⟨last, ?_, hr⟩
      rw [xeuclidLoop_of_ne_zero n hc, List.getLast?_cons, hlast]; rfl

end

/-- The first division is by a polynomial of higher degree and only exchanges the operands (R172). -/
theorem xeuclid_getElem?_two {u v : Nat} (hv : v ≠ 0) (h : u < 2 ^ deg v) :
    (xeuclid u v)[2]? = some { index := 2, r := u, q := some 0, s := 1, t := 0 } := by
  rw [xeuclid, xeuclidLoop_of_ne_zero (deg v) hv, List.getElem?_cons_succ, xeuclidLoop_getElem?_one]
  simp [nextRow, pdivmod_of_lt hv h]

/-- At most one row a pass, after rows 0 and 1 (R172). -/
theorem length_xeuclid_le (u v : Nat) : (xeuclid u v).length ≤ deg v + 3 := length_xeuclidLoop_le _ _ _

/-- Settles O53: rows 0 and 1 state the operands themselves, and a division keeps the identity. -/
theorem bezoutRowsIdentity : Obligations.BezoutRowsIdentity := xeuclid_balanced

/-- Settles O54: the modulus has degree w, above that of the element, and w + 1 passes reach a zero remainder. -/
theorem bezoutTableShape : Obligations.BezoutTableShape := by
  intro b w p _ hb hp
  have hdeg : deg (2 ^ w + p) = w := deg_effectiveModulus hp
  have hlen := length_xeuclid_le b (2 ^ w + p)
  rw [hdeg] at hlen
  exact ⟨xeuclid_getElem?_two (effectiveModulus_ne_zero w p) (hdeg.symm ▸ hb), hlen,
    xeuclidLoop_getLast?_r (lt_two_pow_deg_succ _)⟩

/-! ### BGCD (R167, R173) -/

/-- Settles O58: the gcd is a combination of the operands, so a common divisor divides it. -/
theorem bgcdIsGreatestDivisor : Obligations.BgcdIsGreatestDivisor := fun u v =>
  have hg := bgcd_polyGcd u v
  ⟨hg.dvd_left, hg.dvd_right, fun _ => hg.greatest⟩

/-- Settles O59: both orders give a gcd of the same two polynomials, and there is only one. -/
theorem bgcdSymmetric : Obligations.BgcdSymmetric := fun u v =>
  (bgcd_polyGcd u v).unique (bgcd_polyGcd v u).symm

/-- Settles O60: the table too finds the gcd, and there is only one. -/
theorem bgcdAgreesWithBezoutTable : Obligations.BgcdAgreesWithBezoutTable := bgcd_eq_secondToLast_r

/-! ### GCD (R165) -/

section
variable {s : State} {rs1 rs2 : Reg}

/-- Two operands of one field are all that GCD asks for: no value of them is an error. -/
theorem effect_gcd_of_read {ab : Element × Element} (h : readSameField rs1 rs2 s = .ok ab) (rd : Reg) :
    effect (.gcd rd rs1 rs2) s = .ok (.write rd (Element.gcd ab)) := by
  rw [effect, gcdResult_eq, h]; rfl

theorem effect_gcd_of_error {k : ErrorKind} (h : readSameField rs1 rs2 s = .error k) (rd : Reg) :
    effect (.gcd rd rs1 rs2) s = .error k := by
  rw [effect, gcdResult_eq, h]; rfl

end

/-- Settles O38: the sources hold elements of one field, whose gcd fits their width, or one is empty, or the fields
differ. -/
theorem gcdWritesDivisor : Obligations.GcdWritesDivisor := by
  intro s rd rs1 rs2 hs
  refine ⟨decode_ok_iff_of_wellFormed rfl, fun a b ha hb hw hp => ?_,
    fun h => exec_raises (effect_gcd_of_error (readSameField_error.2 (.inl ⟨h, rfl⟩)) rd) rfl,
    fun a b ha hb h =>
      exec_raises (effect_gcd_of_error (readSameField_error.2 (.inr ⟨⟨a, b, ha, hb, h⟩, rfl⟩)) rd) rfl⟩
  have hread := (readSameField_ok (ab := (a, b))).2 ⟨ha, hb, hw, hp⟩
  have hpair : s.MayHoldPair (a, b) := ⟨hs.mayHold ha, hs.mayHold hb, hw⟩
  have hfits := hs.regs rs1 a ha
  have hv : bgcd a.value.toNat b.value.toNat < 2 ^ a.width.toNat :=
    have ⟨_, _, hav, _⟩ := hfits
    bgcd_lt hav hpair.snd_lt
  obtain ⟨t, ht, hwrites, hends⟩ := exec_writes_withValue (effect_gcd_of_read hread rd) hfits hv
  exact ⟨t, _, rfl, ht, hwrites, hv, hends⟩

end Sys2Proof.Machine
end

section
/-! SUPPORT. The errors of each command (60_exceptions.md R185 to R196): a lemma per command says which error its
effect is and when, in the order of its checks (R196), and one says that the response carries the code. -/

namespace Sys2Proof.Machine

/-! ### The error of a computation -/

section
variable {α β : Type} {r : Except ErrorKind α} {k : ErrorKind}

theorem map_eq_error {f : α → β} : r.map f = .error k ↔ r = .error k := by
  cases r <;> simp [Except.map]

/-- A computation in two parts fails in the first, or in the second on what the first gave. -/
theorem bind_eq_error {f : α → Except ErrorKind β} :
    r.bind f = .error k ↔ r = .error k ∨ ∃ a, r = .ok a ∧ f a = .error k := by
  cases r <;> simp [Except.bind]

theorem bind_eq_ok {f : α → Except ErrorKind β} {b : β} :
    r.bind f = .ok b ↔ ∃ a, r = .ok a ∧ f a = .ok b := by
  cases r <;> simp [Except.bind]

end

theorem quotient_eq_error {a b : Element} {k : ErrorKind} :
    Element.quotient (a, b) = .error k ↔ b.value = 0 ∧ k = .divisionByZero := by
  by_cases h : b.value = 0
  · rw [quotient_of_zero a h, Except.error.injEq, eq_comm, and_iff_right h]
  · rw [quotient_of_ne_zero a h]
    exact iff_of_false nofun fun h0 => h h0.1

theorem inverse_eq_error {b : Element} {k : ErrorKind} :
    Element.inverse b = .error k ↔ b.value = 0 ∧ k = .divisionByZero := by
  by_cases h : b.value = 0
  · rw [inverse_of_zero h, Except.error.injEq, eq_comm, and_iff_right h]
  · rw [inverse_of_ne_zero h]
    exact iff_of_false nofun fun h0 => h h0.1

/-! ### The errors of each command -/

section
variable {s : State} {k : ErrorKind} {rd rs1 rs2 : Reg}

@[simp] theorem effect_config_error {m poly : Nat} :
    effect (.config m poly) s = .error k ↔ (m = 0 ∨ 32 < m) ∧ k = .invalidDegree := by
  by_cases h : m = 0 ∨ m > mmax
  · rw [effect, if_pos h, Except.error.injEq, eq_comm]
    exact (and_iff_right h).symm
  · rw [effect, if_neg h]
    exact iff_of_false nofun fun h' => h h'.1

@[simp] theorem effect_count_error : effect .count s = .error k ↔ s.field = none ∧ k = .noField := by
  rw [effect, map_eq_error, readField_error]

@[simp] theorem effect_elem_error {index : Nat} :
    effect (.elem rd index) s = .error k ↔ (s.field = none ∧ k = .noField) ∨
      ∃ f, s.field = some f ∧ 2 ^ f.m.toNat ≤ index ∧ k = .indexOutOfRange := by
  rw [effect, map_eq_error, elemResult_eq, bind_eq_error]
  simp only [readField_error, readField_ok, elemRead_error]

@[simp] theorem effect_add_error :
    effect (.add rd rs1 rs2) s = .error k ↔ readSameWidth rs1 rs2 s = .error k := by
  rw [effect, map_eq_error, xorResult_eq, map_eq_error]

@[simp] theorem effect_sub_error :
    effect (.sub rd rs1 rs2) s = .error k ↔ readSameWidth rs1 rs2 s = .error k := effect_add_error

@[simp] theorem effect_mul_error :
    effect (.mul rd rs1 rs2) s = .error k ↔ readSameField rs1 rs2 s = .error k := by
  rw [effect, map_eq_error, mulResult_eq, map_eq_error]

@[simp] theorem effect_div_error :
    effect (.div rd rs1 rs2) s = .error k ↔ readSameField rs1 rs2 s = .error k ∨
      ∃ a b, s.reg rs1 = some a ∧ s.reg rs2 = some b ∧ a.width = b.width ∧ a.poly = b.poly ∧
        b.value = 0 ∧ k = .divisionByZero := by
  rw [effect, map_eq_error, divResult_eq, bind_eq_error]
  simp only [Prod.exists, readSameField_ok, quotient_eq_error, and_assoc]

@[simp] theorem effect_inv_error :
    effect (.inv rd rs1) s = .error k ↔ (s.reg rs1 = none ∧ k = .emptyRegister) ∨
      ∃ b, s.reg rs1 = some b ∧ b.value = 0 ∧ k = .divisionByZero := by
  rw [effect, map_eq_error, invResult_eq, bind_eq_error]
  simp only [readSource_error, readSource_ok, inverse_eq_error]

@[simp] theorem effect_gcd_error :
    effect (.gcd rd rs1 rs2) s = .error k ↔ readSameField rs1 rs2 s = .error k := by
  rw [effect, map_eq_error, gcdResult_eq, map_eq_error]

@[simp] theorem effect_rdv_error :
    effect (.rdv rs1) s = .error k ↔ s.reg rs1 = none ∧ k = .emptyRegister := by
  rw [effect, map_eq_error, readSource_error]

@[simp] theorem effect_rdp_error :
    effect (.rdp rs1) s = .error k ↔ s.reg rs1 = none ∧ k = .emptyRegister := by
  rw [effect, map_eq_error, readSource_error]

end

/-! ### The error and the response -/

/-- The response carries the code of an error exactly when the effect is that error (R66, R190). -/
theorem exec_response_error {i : Instr} {s t : State} (h : exec i s = .next t) (k : ErrorKind) :
    t.response = some (rspNumber (errorCode k).toNat 0 0) ↔ effect i s = .error k := by
  obtain rfl := exec_next.1 h
  rw [← errorWord_eq_rspNumber]
  rcases effect i s with l | (f | ⟨width, value⟩ | ⟨rd, e⟩)
  · simpa using ⟨errorWord_injective, congrArg errorWord⟩
  all_goals simp [okWord_ne_errorWord]

/-- No command has an error that none may raise (R191, R192), or that is the decoder's (R193). -/
theorem effect_ne_error {k : ErrorKind}
    (hk : k = .widthMismatch ∨ k = .overflow ∨ k = .illegalCommand) (i : Instr) (s : State) :
    effect i s ≠ .error k := by
  rcases hk with rfl | rfl | rfl <;> cases i <;> simp [readSameWidth_error, readSameField_error]

end Sys2Proof.Machine
end

section
/-! The codes (60_exceptions.md R186 to R189, R194, R195): each raised by the commands and in the states its rule
names, and by no other. -/

namespace Sys2Proof.Machine

/-- Settles O40: of the commands, only CONFIG has this error. -/
theorem invalidDegreeExactly : Obligations.InvalidDegreeExactly := by
  intro i s t h
  refine (exec_response_error h .invalidDegree).trans ?_
  cases i with
  | config m poly => simp
  | _ => simp [readSameWidth_error, readSameField_error]

/-- Settles O41: of the commands, only ELEM has this error, after it has found a field. -/
theorem indexOutOfRangeExactly : Obligations.IndexOutOfRangeExactly := by
  intro i s t h
  refine (exec_response_error h .indexOutOfRange).trans ?_
  cases i with
  | elem rd index => simp
  | _ => simp [readSameWidth_error, readSameField_error]

/-- Settles O42: ADD and SUB have this error from the test of the widths, MUL, DIV and GCD from that of the
fields. -/
theorem incompatibleOperandsExactly : Obligations.IncompatibleOperandsExactly := by
  intro i s t h
  refine (exec_response_error h .incompatibleOperands).trans ?_
  cases i with
  | add rd rs1 rs2 | sub rd rs1 rs2 => simp [readSameWidth_error]
  | mul rd rs1 rs2 | div rd rs1 rs2 | gcd rd rs1 rs2 => simp [readSameField_error, imp_iff_not_or]
  | _ => simp

/-- Settles O43: DIV and INV have this error last, when every check before has passed. -/
theorem divisionByZeroExactly : Obligations.DivisionByZeroExactly := by
  intro i s t h
  refine (exec_response_error h .divisionByZero).trans ?_
  cases i with
  | div rd rs1 rs2 => simp [readSameField_error]
  | inv rd rs1 => simp
  | _ => simp [readSameWidth_error, readSameField_error]

/-- Settles O46: COUNT and ELEM have this error first, and no other command reads `F`. -/
theorem noFieldExactly : Obligations.NoFieldExactly := by
  intro i s t h
  refine (exec_response_error h .noField).trans ?_
  cases i with
  | count | elem rd index => simp [readsField]
  | _ => simp [readsField, readSameWidth_error, readSameField_error]

/-- Settles O47: every command that has sources tests them first. -/
theorem emptyRegisterExactly : Obligations.EmptyRegisterExactly := by
  intro i s t h
  refine (exec_response_error h .emptyRegister).trans ?_
  cases i with
  | config m poly | count | elem rd index => simp [sources]
  | _ => simp [sources, readSameWidth_error, readSameField_error]

end Sys2Proof.Machine
end

section
/-! The codes a word can be answered with (60_exceptions.md R185, R191 to R193): an illegal word is answered with
code 7, and it alone; codes 5, 6 and 10 to 15 answer no word. -/

namespace Sys2Proof

/-- The words no row admits are those the decoder rejects (30_encoding.md R63). -/
theorem decode_error_iff {w : CmdWord} :
    decode w = .error .illegalCommand ↔ ∀ i : Instr, w &&& rowMask i ≠ rowMatch i := by
  refine ⟨fun hd i hi => ?_, legalWordsMatchMasks.2.2 w⟩
  obtain ⟨j, hj, -⟩ := decode_of_and_rowMask hi
  cases hd.symm.trans hj

end Sys2Proof

namespace Sys2Proof.Machine

/-- Settles O45: a word that decodes runs its command, which has another error or none. -/
theorem illegalCommandExactly : Obligations.IllegalCommandExactly := by
  intro w s t h
  rw [← decode_error_iff]
  cases hd : decode w with
  | error k =>
    obtain rfl := decode_error hd
    cases (runWord_error hd s).symm.trans h
    exact iff_of_true (congrArg some (errorWord_eq_rspNumber _)) rfl
  | ok i =>
    refine (exec_response_error ((runWord_ok hd s).symm.trans h) .illegalCommand).trans ?_
    exact iff_of_false (effect_ne_error (.inr (.inr rfl)) i s) nofun

/-- A word answered with an error gets a legal response in any state, one that breaks the invariant included. -/
theorem runWord_error_legal {w : CmdWord} {s t : State} {r : RspWord} (h : runWord w s = .next t)
    (hr : t.response = some r) (hst : statusOf r ≠ 0) : LegalResponse r := by
  cases hd : decode w with
  | error k =>
    obtain rfl := decode_error hd
    cases (runWord_error hd s).symm.trans h
    exact Option.some.inj hr ▸ errorWord_legal (by decide) (by decide)
  | ok i =>
    obtain rfl := exec_next.1 ((runWord_ok hd s).symm.trans h)
    obtain ⟨k, hk⟩ := finish_status_ne_zero hr hst
    rw [hk] at hr
    exact Option.some.inj hr ▸ errorWord_legal
      (fun h5 => effect_ne_error (.inl h5) i s hk) (fun h6 => effect_ne_error (.inr (.inl h6)) i s hk)

/-- Settles O44: STATUS is 0, or the code of an error that a word can be answered with. -/
theorem unassignedCodesNeverAppear : Obligations.UnassignedCodesNeverAppear := by
  intro w s t r h hr
  by_cases hst : statusOf r = 0
  · rw [hst]; decide
  · obtain ⟨-, ⟨h0, -⟩ | ⟨hcode, -⟩⟩ := runWord_error_legal h hr hst
    · exact absurd h0 hst
    · omega

end Sys2Proof.Machine
end

section
/-! The life of one field (60_exceptions.md R188): a command writes an element with the width and the polynomial of
`F` or of its first operand, so the elements in the registers stay compatible until the next CONFIG. -/

namespace Sys2Proof.Machine

/-- The element carries the width and the polynomial of `F`. -/
def State.HasFieldOf (s : State) (e : Element) : Prop :=
  ∃ f, s.field = some f ∧ e.width = f.m ∧ e.poly = f.p

/-! ### What is computed of elements of the field -/

theorem map_write_eq_ok {r : Except ErrorKind Element} {rd q : Reg} {e : Element}
    (h : r.map (Effect.write rd) = .ok (.write q e)) : r = .ok e := by
  obtain ⟨e', hr, he⟩ := map_eq_ok.1 h
  cases he
  exact hr

section
variable {s : State} {e : Element}

theorem hasFieldOf_of_elemResult {index : Nat} (h : elemResult index s = .ok e) : s.HasFieldOf e := by
  obtain ⟨f, hf, he⟩ := bind_eq_ok.1 ((elemResult_eq index s).symm.trans h)
  obtain ⟨-, rfl⟩ := elemRead_ok.1 he
  exact ⟨f, readField_ok.1 hf, rfl, rfl⟩

theorem hasFieldOf_of_quotient {ab : Element × Element} (hab : s.HasFieldOf ab.1)
    (h : Element.quotient ab = .ok e) : s.HasFieldOf e := by
  unfold Element.quotient at h
  split at h
  · cases h
  · cases h; exact hab

theorem hasFieldOf_of_inverse {b : Element} (hb : s.HasFieldOf b) (h : Element.inverse b = .ok e) :
    s.HasFieldOf e := by
  unfold Element.inverse at h
  split at h
  · cases h
  · cases h; exact hb

/-- The element a command writes is of the present field when its sources are. -/
theorem State.OfOneField.effect_write (hs : s.OfOneField) {i : Instr} {q : Reg}
    (h : effect i s = .ok (.write q e)) : s.HasFieldOf e := by
  cases i with
  | config m poly | count | rdv rs1 | rdp rs1 => exact nomatch (effect_of h : none = some q)
  | elem rd index => exact hasFieldOf_of_elemResult (map_write_eq_ok h)
  | add rd rs1 rs2 | sub rd rs1 rs2 =>
    obtain ⟨ab, hab, rfl⟩ := map_eq_ok.1 ((xorResult_eq rs1 rs2 s).symm.trans (map_write_eq_ok h))
    exact hs rs1 ab.1 (readSameWidth_ok.1 hab).1
  | mul rd rs1 rs2 =>
    obtain ⟨ab, hab, rfl⟩ := map_eq_ok.1 ((mulResult_eq rs1 rs2 s).symm.trans (map_write_eq_ok h))
    exact hs rs1 ab.1 (readSameField_ok.1 hab).1
  | gcd rd rs1 rs2 =>
    obtain ⟨ab, hab, rfl⟩ := map_eq_ok.1 ((gcdResult_eq rs1 rs2 s).symm.trans (map_write_eq_ok h))
    exact hs rs1 ab.1 (readSameField_ok.1 hab).1
  | div rd rs1 rs2 =>
    obtain ⟨ab, hab, he⟩ := bind_eq_ok.1 ((divResult_eq rs1 rs2 s).symm.trans (map_write_eq_ok h))
    exact hasFieldOf_of_quotient (hs rs1 ab.1 (readSameField_ok.1 hab).1) he
  | inv rd rs1 =>
    obtain ⟨b, hb, he⟩ := bind_eq_ok.1 ((invResult_eq rs1 s).symm.trans (map_write_eq_ok h))
    exact hasFieldOf_of_inverse (hs rs1 b (readSource_ok.1 hb)) he

end

/-! ### The elements stay of one field -/

theorem State.OfOneField.of_sameCore {s t : State} (hs : s.OfOneField) (h : SameCore s t) :
    t.OfOneField := by
  obtain ⟨hf, hr⟩ := h
  intro r e he
  rw [hf]
  exact hs r e (hr r ▸ he)

theorem State.OfOneField.setReg {s : State} (hs : s.OfOneField) {e : Element} (he : s.HasFieldOf e)
    (rd : Reg) : (s.setReg rd e).OfOneField := by
  intro r e' h
  rw [setReg_field]
  by_cases hr : r = rd
  · subst hr
    rw [setReg_reg_same] at h
    cases h
    exact he
  · rw [setReg_reg_of_ne s e hr] at h
    exact hs r e' h

theorem State.OfOneField.finish {s : State} (hs : s.OfOneField) {i : Instr} (hi : isConfig i = false) :
    (finish (effect i s) s).OfOneField := by
  cases h : effect i s with
  | error k => exact hs.of_sameCore ⟨raise_field s k, raise_reg s k⟩
  | ok x =>
    cases x with
    | setField f => exact absurd (hi.symm.trans (effect_of h).1) (by decide)
    | answer width value => exact hs.of_sameCore ⟨rfl, respond_reg s width value⟩
    | write rd e =>
      exact (hs.setReg (hs.effect_write h) rd).of_sameCore ⟨rfl, respond_reg _ e.width e.value.toNat⟩

/-- Any two elements in the registers fit together. -/
theorem State.OfOneField.sameField {s : State} (hs : s.OfOneField) {r q : Reg} {a b : Element}
    (ha : s.reg r = some a) (hb : s.reg q = some b) : a.width = b.width ∧ a.poly = b.poly := by
  obtain ⟨f, hf, haw, hap⟩ := hs r a ha
  obtain ⟨g, hg, hbw, hbp⟩ := hs q b hb
  obtain rfl : f = g := Option.some.inj (hf.symm.trans hg)
  exact ⟨haw.trans hbw.symm, hap.trans hbp.symm⟩

/-- Settles O25: what is written is of the present field, and two elements of one field fit together. -/
theorem oneFieldStaysCompatible : Obligations.OneFieldStaysCompatible := by
  intro i s t hs hi h
  refine ⟨exec_next.1 h ▸ hs.finish hi, fun hr => ?_⟩
  obtain ⟨_, _, _, a, b, ha, hb, hne⟩ := (incompatibleOperandsExactly i s t h).1 hr
  obtain ⟨hw, hp⟩ := hs.sameField ha hb
  rcases hne with ⟨-, hne⟩ | ⟨-, hne | hne⟩
  · exact hne hw
  · exact hne hw
  · exact hne hp

end Sys2Proof.Machine
end

section
/-! A step goes on in every state (60_exceptions.md R190; 70_reset_and_hazards.md R227), and does nothing in a core
that has nothing to do (R206). -/

namespace Sys2Proof.Machine

/-- Settles O16: of the four kinds of edge only the execution of a word could stop, and every word is answered. -/
theorem stepAlwaysGoesOn : Obligations.StepAlwaysGoesOn := by
  intro s
  rcases atEdge_cases (nextInput s) (dropInput s) with ⟨-, e⟩ | ⟨-, -, e⟩ | ⟨-, -, w, -, e⟩ | ⟨-, -, -, e⟩
  · exact ⟨_, e⟩
  · exact ⟨_, e⟩
  · obtain ⟨t, -, ht, -⟩ := answers_runWord w (dropInput s)
    exact ⟨t, e.trans ht⟩
  · exact ⟨_, e⟩

theorem cmdReady_iff {s : State} : cmdReady s = true ↔ s.command = none ∧ s.response = none := by
  simp [cmdReady]

/-- Settles O15: the edge is one of an idle core, which takes the command offered, and none is. -/
theorem idleCoreKeepsState : Obligations.IdleCoreKeepsState := by
  intro s hs hrst hcmd
  obtain ⟨hc, hr⟩ := cmdReady_iff.1 hs
  calc step s = .next (acceptCommand (nextInput s) (dropInput s)) := atEdge_idle hrst hr hc
    _ = .next (dropInput s) := by rw [acceptCommand_none hcmd]

end Sys2Proof.Machine
end

section
/-! SUPPORT. What a step can do, said of the state it ends in (70_reset_and_hazards.md R215, R218, R225), with the
execution of a word as the end of a command; and a run of the machine, edge by edge. -/

namespace Sys2Proof.Machine

/-! ### The execution of a word -/

/-- What a word makes of the operands: the effect of its command, or the decoder's error (30_encoding.md R74). -/
def wordEffect (w : CmdWord) (s : State) : Except ErrorKind Effect :=
  (decode w).bind fun i => effect i s

theorem runWord_eq (w : CmdWord) (s : State) : runWord w s = .next (finish (wordEffect w s) s) := by
  cases hd : decode w with
  | ok i => rw [runWord_ok hd, exec_eq, wordEffect, hd]; rfl
  | error k => rw [runWord_error hd, wordEffect, hd]; rfl

/-- A word reads `F` and the registers, not the channels and not the host (10_state.md R24). -/
theorem wordEffect_congr {s s' : State} (h : SameCore s s') (w : CmdWord) :
    wordEffect w s' = wordEffect w s := by
  obtain ⟨hf, hr⟩ := h
  simp only [wordEffect, fun i => effect_congr (i := i) (fun r _ => hr r) fun _ => hf]

/-- The end of a command leaves what the host drives alone, and forgets the command that was in progress. -/
theorem finish_channels (x : Except ErrorKind Effect) (s : State) (c : Option CmdWord) (l : List PortInput) :
    finish x { s with command := c, inputs := l } = { finish x s with inputs := l } := by
  rcases x with k | (f | ⟨width, value⟩ | ⟨rd, e⟩)
  case ok.write => cases rd <;> rfl
  all_goals rfl

/-! ### One step -/

theorem takeResponse_none {s : State} (h : s.response = none) (p : PortInput) : takeResponse p s = s := by
  simp [takeResponse, h]

theorem step_reset {s : State} (h : (nextInput s).rst = true) :
    step s = .next (resetCore (takeResponse (nextInput s) (dropInput s))) := atEdge_reset h (dropInput s)

/-- The step of a core with a response pending and no reset. -/
theorem step_response {s : State} {r : RspWord} (hr : s.response = some r) (hrst : (nextInput s).rst = false) :
    step s = .next (takeResponse (nextInput s) (dropInput s)) :=
  atEdge_response (s := dropInput s) hrst hr

/-- The step of an idle core that takes the word offered. -/
theorem step_accept {s : State} {w : CmdWord} (hs : cmdReady s = true) (hrst : (nextInput s).rst = false)
    (hcmd : (nextInput s).cmd = some w) : step s = .next { dropInput s with command := some w } := by
  obtain ⟨hc, hr⟩ := cmdReady_iff.1 hs
  calc step s = .next (acceptCommand (nextInput s) (dropInput s)) := atEdge_idle hrst hr hc
    _ = .next { dropInput s with command := some w } := congrArg _ (acceptCommand_ready (s := dropInput s) hcmd hs)

/-- Everything a step can do, one case for each kind of edge. -/
theorem step_cases {s t : State} (h : step s = .next t) :
    ((nextInput s).rst = true ∧ t = resetCore (takeResponse (nextInput s) (dropInput s))) ∨
      ((nextInput s).rst = false ∧ s.response.isSome ∧ t = takeResponse (nextInput s) (dropInput s)) ∨
      ((nextInput s).rst = false ∧ s.response = none ∧
        ∃ w, s.command = some w ∧ t = finish (wordEffect w (dropInput s)) (dropInput s)) ∨
      ((nextInput s).rst = false ∧ s.response = none ∧ s.command = none ∧
        t = acceptCommand (nextInput s) (dropInput s)) := by
  rcases atEdge_cases (nextInput s) (dropInput s) with
    ⟨hp, e⟩ | ⟨hp, hr, e⟩ | ⟨hp, hr, w, hc, e⟩ | ⟨hp, hr, hc, e⟩
  · cases e.symm.trans h
    exact .inl ⟨hp, rfl⟩
  · cases e.symm.trans h
    exact .inr (.inl ⟨hp, hr, rfl⟩)
  · cases (e.trans (runWord_eq w _)).symm.trans h
    exact .inr (.inr (.inl ⟨hp, hr, w, hc, rfl⟩))
  · cases e.symm.trans h
    exact .inr (.inr (.inr ⟨hp, hr, hc, rfl⟩))

/-- An edge consumes one input, whatever it does. -/
theorem step_inputs {s t : State} (h : step s = .next t) : t.inputs = s.inputs.tail := by
  rcases step_cases h with ⟨-, rfl⟩ | ⟨-, -, rfl⟩ | ⟨-, -, w, -, rfl⟩ | ⟨-, -, -, rfl⟩ <;> simp

/-! ### A run -/

theorem run_succ_of_step {s t : State} (h : step s = .next t) (n : Nat) :
    Host.Core.run Sys2Proof.core (n + 1) s = Host.Core.run Sys2Proof.core n t := by
  have hcore : Host.Core.step Sys2Proof.core s = .next t := h
  simp only [Host.Core.run, hcore]

/-- A run of one edge more begins with a step, every state having one. -/
theorem run_succ_next {n : Nat} {s u : State} (h : Host.Core.run Sys2Proof.core (n + 1) s = .next u) :
    ∃ t, step s = .next t ∧ Host.Core.run Sys2Proof.core n t = .next u := by
  obtain ⟨t, ht⟩ := stepAlwaysGoesOn s
  exact ⟨t, ht, (run_succ_of_step ht n).symm.trans h⟩

end Sys2Proof.Machine
end

section
/-! Reset (70_reset_and_hazards.md R215, R216, R218): it drops all the core holds, nothing else empties `F` or a
register, and before the first CONFIG every other command raises an error. -/

namespace Sys2Proof.Machine

/-- Settles O3: the edge resets a core whose response the host has taken, or has not. -/
theorem resetEdgeDropsAll : Obligations.ResetEdgeDropsAll := by
  intro s hrst
  refine ⟨_, step_reset hrst, rfl, resetCore_reg _, rfl, rfl, takeResponse_inputs _ _, fun h => ?_⟩
  have hkeep : takeResponse (nextInput s) (dropInput s) = dropInput s := by
    rcases h with h | h
    · exact takeResponse_hold h (dropInput s)
    · exact takeResponse_none (s := dropInput s) h _
  rw [hkeep]
  rfl

/-! ### Nothing else empties -/

/-- What is there stays there, changed or not. -/
def EmptiesNothing (s t : State) : Prop :=
  (s.field ≠ none → t.field ≠ none) ∧ ∀ r, s.reg r ≠ none → t.reg r ≠ none

theorem SameCore.emptiesNothing {s t : State} (h : SameCore s t) : EmptiesNothing s t := by
  obtain ⟨hf, hr⟩ := h
  exact ⟨fun hne => hf ▸ hne, fun r hne => hr r ▸ hne⟩

/-- The end of a command writes a field or an element, and removes none. -/
theorem emptiesNothing_finish (x : Except ErrorKind Effect) (s : State) : EmptiesNothing s (finish x s) := by
  rcases x with k | (f | ⟨width, value⟩ | ⟨rd, e⟩)
  · exact SameCore.emptiesNothing ⟨raise_field s k, raise_reg s k⟩
  · exact ⟨fun _ => by simp, fun r hr => by simpa using hr⟩
  · exact SameCore.emptiesNothing ⟨respond_field s width value, respond_reg s width value⟩
  · refine ⟨fun hf => by simpa using hf, fun r hr => ?_⟩
    rw [finish_write, respond_reg, setReg_reg]
    split
    · exact Option.some_ne_none e
    · exact hr

/-- An edge without reset takes or holds a response, runs a word, or takes one. -/
theorem emptiesNothing_step {s t : State} (h : step s = .next t) (hrst : (nextInput s).rst = false) :
    EmptiesNothing s t := by
  rcases step_cases h with ⟨hp, -⟩ | ⟨-, -, rfl⟩ | ⟨-, -, w, -, rfl⟩ | ⟨-, -, -, rfl⟩
  · exact absurd (hrst.symm.trans hp) (by decide)
  · exact SameCore.emptiesNothing ⟨by simp, by simp⟩
  · obtain ⟨hf, hr⟩ := emptiesNothing_finish (wordEffect w (dropInput s)) (dropInput s)
    exact ⟨hf, fun r hne => hr r (by rwa [dropInput_reg])⟩
  · exact SameCore.emptiesNothing ⟨by simp, by simp⟩

/-- Settles O4: an edge is a reset, or one that empties nothing. -/
theorem onlyResetEmpties : Obligations.OnlyResetEmpties := by
  intro s t h
  refine ⟨fun hrst => ?_, emptiesNothing_step h⟩
  cases (step_reset hrst).symm.trans h
  exact ⟨rfl, resetCore_reg _, rfl, rfl⟩

/-! ### Before the first CONFIG -/

/-- The error of a command that finds no field and no element. -/
theorem effect_of_nothing_written {s : State} {i : Instr} (hf : s.field = none) (hr : ∀ r, s.reg r = none)
    (hi : isConfig i = false) :
    effect i s = .error (if readsField i then .noField else .emptyRegister) := by
  cases i with
  | config m poly => exact nomatch (hi : true = false)
  | count => exact effect_count_of_no_field hf
  | elem rd index => exact effect_elem_of_no_field hf rd index
  | add rd rs1 rs2 | sub rd rs1 rs2 => exact effect_add_of_empty (.inl (hr rs1)) rd
  | mul rd rs1 rs2 => exact effect_mul_of_empty (.inl (hr rs1)) rd
  | div rd rs1 rs2 => exact effect_div_of_empty (.inl (hr rs1)) rd
  | inv rd rs1 => exact effect_inv_of_none (hr rs1) rd
  | gcd rd rs1 rs2 => exact effect_gcd_of_error (readSameField_error.2 (.inl ⟨.inl (hr rs1), rfl⟩)) rd
  | rdv rs1 => exact effect_rdv_of_none (hr rs1)
  | rdp rs1 => exact effect_rdp_of_none (hr rs1)

/-- Settles O5: the two errors have the codes 8 and 9. -/
theorem onlyConfigSucceedsAfterReset : Obligations.OnlyConfigSucceedsAfterReset := by
  intro s i hf hr hi
  refine exec_raises (effect_of_nothing_written hf hr hi) ?_
  cases readsField i <;> rfl

end Sys2Proof.Machine
end

section
/-! The channels (70_reset_and_hazards.md R225): a word is taken by an idle core and by no other, and a response is
held until the host takes it. -/

namespace Sys2Proof.Machine

/-- Settles O12: the edge records the word and nothing more. -/
theorem idleCoreTakesCommand : Obligations.IdleCoreTakesCommand := by
  intro s w hs hrst hcmd
  obtain ⟨-, hr⟩ := cmdReady_iff.1 hs
  exact ⟨_, step_accept hs hrst hcmd, rfl, hr, ⟨rfl, dropInput_reg s⟩, rfl, rfl⟩

/-- Settles O13: the edge is one of `takeResponse` alone. -/
theorem responseHeldUntilTaken : Obligations.ResponseHeldUntilTaken := by
  intro s r hr hrst
  refine ⟨_, step_response hr hrst, ⟨by simp, by simp⟩, by simp, by simp, ?_⟩
  cases hready : (nextInput s).rspReady with
  | false =>
    rw [takeResponse_hold hready]
    exact ⟨hr, rfl⟩
  | true =>
    rw [takeResponse_ready (s := dropInput s) hready hr]
    exact ⟨rfl, rfl⟩

/-! ### An offer that stands -/

/-- A core that is not ready takes no word: the one in progress stays, is answered or is dropped. -/
theorem step_command_of_not_ready {s t : State} (hs : cmdReady s = false) (h : step s = .next t) :
    t.command = none ∨ t.command = s.command := by
  rcases step_cases h with ⟨-, rfl⟩ | ⟨-, -, rfl⟩ | ⟨-, -, w, -, rfl⟩ | ⟨-, hr, hc, -⟩
  · exact .inl rfl
  · exact .inr (by simp)
  · exact .inl (finish_command _ _)
  · exact absurd (hs.symm.trans (cmdReady_iff.2 ⟨hc, hr⟩)) (by decide)

/-- What the host drives after an edge is what stood next in its list. -/
theorem nextInput_of_step {s t : State} (h : step s = .next t) : nextInput t = nextInput (dropInput s) := by
  simp only [nextInput, step_inputs h, dropInput_inputs]

/-- The offer of a host that holds it stands after every edge of a core that is not ready. -/
theorem offer_stands {w : CmdWord} {n : Nat} {s u : State} (hw : (nextInput s).cmd = some w)
    (hrun : Host.Core.run Sys2Proof.core n s = .next u)
    (hwait : ∀ k v, k < n → Host.Core.run Sys2Proof.core k s = .next v →
      cmdReady v = false ∧ HostHolds v ∧ (nextInput v).rst = false) :
    (nextInput u).cmd = some w := by
  induction n generalizing s with
  | zero => cases hrun; exact hw
  | succ n ih =>
    obtain ⟨t, ht, hrun'⟩ := run_succ_next hrun
    obtain ⟨hready, hholds, hrst⟩ := hwait 0 s n.succ_pos rfl
    have hwt : (nextInput t).cmd = some w := by
      rw [nextInput_of_step ht]
      exact hholds w hw hready hrst
    refine ih hwt hrun' fun k v hk hv => ?_
    exact hwait (k + 1) v (Nat.succ_lt_succ hk) ((run_succ_of_step ht k).trans hv)

/-- Settles O14: the offer still stands at the first ready edge, where an idle core takes it. -/
theorem offerStandsUntilTaken : Obligations.OfferStandsUntilTaken := by
  refine ⟨fun s t hs h => step_command_of_not_ready hs h, fun n s u w hw hrun hwait hready hrst => ?_⟩
  obtain ⟨t, ht, hcmd, -, hcore, -⟩ :=
    idleCoreTakesCommand u w hready hrst (offer_stands hw hrun hwait)
  exact ⟨t, ht, hcmd, hcore⟩

end Sys2Proof.Machine
end

section
/-! The run of the ports is the run of the commands (70_reset_and_hazards.md R225, R228): the three edges of a word
do what executing it and handing its response over does. -/

namespace Sys2Proof.Machine

/-- Every word has a response for the host to take. -/
theorem finish_response (x : Except ErrorKind Effect) (s : State) : ∃ r, (finish x s).response = some r := by
  rcases x with k | (f | ⟨width, value⟩ | ⟨rd, e⟩) <;> exact ⟨_, rfl⟩

/-- The state after a word has been executed and its response handed over (R228). -/
def State.afterWord (s : State) (w : CmdWord) : State := takeResponse .ready (finish (wordEffect w s) s)

theorem runCommands_afterWord (w : CmdWord) (ws : List CmdWord) (s : State) :
    runCommands (w :: ws) s = runCommands ws (s.afterWord w) := by
  rw [runCommands, runWord_eq, State.afterWord]

/-- The core is idle again. -/
theorem afterWord_idle (s : State) (w : CmdWord) :
    (s.afterWord w).command = none ∧ (s.afterWord w).response = none := by
  obtain ⟨r, hr⟩ := finish_response (wordEffect w s) s
  rw [State.afterWord, takeResponse_ready rfl hr]
  exact ⟨finish_command _ s, rfl⟩

/-! ### What the host drives has no part in the execution -/

theorem takeResponse_withInputs (p : PortInput) (s : State) (l : List PortInput) :
    takeResponse p { s with inputs := l } = { takeResponse p s with inputs := l } := by
  obtain hr | ⟨r, hr⟩ := Option.eq_none_or_eq_some s.response
  · rw [takeResponse_none hr, takeResponse_none (s := { s with inputs := l }) hr]
  · cases hp : p.rspReady with
    | false => rw [takeResponse_hold hp, takeResponse_hold hp]
    | true => rw [takeResponse_ready hp hr, takeResponse_ready (s := { s with inputs := l }) hp hr]

theorem sameCore_channels (s : State) (c : Option CmdWord) (l : List PortInput) :
    SameCore s { s with command := c, inputs := l } := ⟨rfl, fun r => by cases r <;> rfl⟩

/-- The word is executed alike when it is in progress, whatever the host drives. -/
theorem finish_wordEffect_channels (w : CmdWord) (s : State) (c : Option CmdWord) (l : List PortInput) :
    finish (wordEffect w { s with command := c, inputs := l }) { s with command := c, inputs := l } =
      { finish (wordEffect w s) s with inputs := l } := by
  rw [wordEffect_congr (sameCore_channels s c l), finish_channels]

theorem afterWord_withInputs (s : State) (w : CmdWord) (l : List PortInput) :
    State.afterWord { s with inputs := l } w = { s.afterWord w with inputs := l } :=
  calc State.afterWord { s with inputs := l } w
      = takeResponse .ready { finish (wordEffect w s) s with inputs := l } :=
        congrArg _ (finish_wordEffect_channels w s s.command l)
    _ = { s.afterWord w with inputs := l } := takeResponse_withInputs _ _ l

/-! ### The three edges of a word -/

section
variable (s : State) (w : CmdWord) (l : List PortInput)

/-- The core takes the word. -/
theorem step_offer (hc : s.command = none) (hr : s.response = none) :
    step { s with inputs := driveCommand w ++ l } =
      .next { s with command := some w, inputs := .idle :: .ready :: l } :=
  step_accept (cmdReady_iff.2 ⟨hc, hr⟩) rfl rfl

/-- It executes the word. -/
theorem step_execute (hr : s.response = none) :
    step { s with command := some w, inputs := .idle :: .ready :: l } =
      .next { finish (wordEffect w s) s with inputs := .ready :: l } :=
  calc step { s with command := some w, inputs := .idle :: .ready :: l }
      = runWord w { s with command := some w, inputs := .ready :: l } := step_command rfl hr rfl
    _ = .next { finish (wordEffect w s) s with inputs := .ready :: l } := by
        rw [runWord_eq, finish_wordEffect_channels]

/-- The host takes the response. -/
theorem step_handOver :
    step { finish (wordEffect w s) s with inputs := .ready :: l } =
      .next { s.afterWord w with inputs := l } := by
  obtain ⟨r, hr⟩ := finish_response (wordEffect w s) s
  calc step { finish (wordEffect w s) s with inputs := .ready :: l }
      = .next (takeResponse .ready { finish (wordEffect w s) s with inputs := l }) := step_response hr rfl
    _ = .next { s.afterWord w with inputs := l } := congrArg _ (takeResponse_withInputs _ _ l)

theorem run_driveCommand (hc : s.command = none) (hr : s.response = none) (n : Nat) :
    Host.Core.run Sys2Proof.core (n + 3) { s with inputs := driveCommand w ++ l } =
      Host.Core.run Sys2Proof.core n { s.afterWord w with inputs := l } := by
  rw [run_succ_of_step (step_offer s w l hc hr), run_succ_of_step (step_execute s w l hr),
    run_succ_of_step (step_handOver s w l)]

end

/-- The run of the ports from an idle core, by induction on the words. -/
theorem run_driveCommands (ws : List CmdWord) (rest : List PortInput) {s : State} (hc : s.command = none)
    (hr : s.response = none) :
    Host.Core.run Sys2Proof.core (3 * ws.length) { s with inputs := driveCommands ws ++ rest } =
      runCommands ws { s with inputs := rest } := by
  induction ws generalizing s with
  | nil => rfl
  | cons w ws ih =>
    obtain ⟨hc', hr'⟩ := afterWord_idle s w
    rw [runCommands_afterWord, afterWord_withInputs, ← ih hc' hr', driveCommands, List.append_assoc,
      List.length_cons, Nat.mul_succ, run_driveCommand s w _ hc hr]

/-- Settles O18: the inputs the state holds are those of the words, then the rest. -/
theorem portRunIsCommandRun : Obligations.PortRunIsCommandRun := by
  intro ws s rest hc hr hin
  rw [← run_driveCommands ws rest hc hr, ← hin]

end Sys2Proof.Machine
end
